-- ==== Sys2Proof/Word.lean ====
section
/-! DEFINITION. The word types: a byte of the buffer, a 16-bit quantity of the instruction stream. -/

namespace Sys2Proof

/-- A byte of the ByteBuffer: 8 bits, bit 0 the least significant (00_scope.md R4). -/
abbrev Byte := BitVec 8

/-- A 16-bit quantity of the stream: a word immediate, a 16-bit displacement or a direct address (20_memory.md R33). -/
abbrev Half := BitVec 16

/-- A 3-bit `reg` or `rm` field, the index of a table row (10_state.md R15 to R17). -/
abbrev RegIndex := BitVec 3

end Sys2Proof
end

