-- ==== Sys2Proof/Config.lean ====
section
/-! DEFINITION. What is fixed for the machine and is no part of its state.
The spec leaves no value of any instruction undefined (30_encoding.md R57, 42_operand_resolution_and_formatting.md R98),
so there is no free value here. The two constant tables stand in Machine/Operands.lean, the header in Machine/Text.lean. -/

namespace Sys2Proof.Config

/-- The longest instruction, in bytes (30_encoding.md R45). -/
def longestInstruction : Nat := 4

/-- What an address that the buffer's list of cells does not name reads as.
DESIGN CHOICE, unsafe (log 1): it is the canonical spelling of a zero byte the caller supplied, since the spec gives every
address below `LEN` a byte of the caller's (20_memory.md R30). -/
def unlistedByte : Byte := 0x00#8

end Sys2Proof.Config
end

