-- ==== Sys2Proof/Machine/Text.lean ====
section
/-! DEFINITION. Text: decimal numbers (42_operand_resolution_and_formatting.md R90), the header (R95) and the
serialisation of the output (R94). Characters are ASCII and a stored line has no terminator (D9, log 11). -/

namespace Sys2Proof.Machine

/-- The decimal digit of a number below 10. -/
def digitChar : Nat → Char
  | 0 => '0'
  | 1 => '1'
  | 2 => '2'
  | 3 => '3'
  | 4 => '4'
  | 5 => '5'
  | 6 => '6'
  | 7 => '7'
  | 8 => '8'
  | _ => '9'

/-- The decimal digits of `n`, most significant first, with `fuel` at least the number of digits less one. -/
def decimalDigits : Nat → Nat → List Char
  | 0, n => [digitChar (n % 10)]
  | fuel + 1, n => if n < 10 then [digitChar n] else decimalDigits fuel (n / 10) ++ [digitChar (n % 10)]

/-- `Dec(n)` for `n >= 0`: the usual digits, no leading zero, `0` for zero (R90). -/
def natText (n : Nat) : String := String.ofList (decimalDigits n n)

/-- `Dec(n)`: a negative number is `-` followed at once by `Dec(|n|)` (R90). -/
def decText (n : Int) : String := if n < 0 then "-" ++ natText n.natAbs else natText n.natAbs

/-- The fixed two-line header: `bits 16` and an empty line (R95, C1). -/
def header : List String := ["bits 16", ""]

/-- The output as one character stream: each line, the last included, followed by one line feed (R94, D9). -/
def serialise : List String → String
  | [] => ""
  | line :: rest => line ++ "\n" ++ serialise rest

end Sys2Proof.Machine
end

