-- ==== Sys2Proof/Machine/State.lean ====
section
/-! DEFINITION. The machine's state as plain data, the reasons a step can stop, and the state after reset. -/

namespace Sys2Proof.Machine

/-- The ByteBuffer's contents: (address, byte) pairs, addresses strictly rising, no byte equal to what an unlisted address
reads as. -/
abbrev Memory := List Host.Cell

/-- The one canonical form of a memory, so that equal memories are equal data. -/
abbrev Memory.wf (m : Memory) : Prop :=
  m.Pairwise (fun c d => c.1 < d.1) ∧ ∀ c ∈ m, c.2 ≠ Config.unlistedByte

/-- The two error kinds and their fields (10_state.md R12, 60_exceptions.md R100 to R102). -/
inductive DecodeError where
  | unsupportedOpcode (offset : Nat) (byteValue : Byte)
  | truncatedInstruction (offset bytesNeeded bytesAvailable : Nat)
  deriving DecidableEq, Repr

/-- The state: the three pieces of architectural state (10_state.md R10) and the two inputs of the pass (R13, log 2). -/
structure State where
  /-- The cursor, the block's program counter (R11). -/
  offset : Nat
  /-- The error record, `none` until an error is raised (R12). -/
  err : Option DecodeError
  /-- The lines emitted so far, oldest first (R14). -/
  out : List String
  /-- The spec's `buf`: the caller's bytes, never written by a transition (R13). -/
  buf : Memory
  /-- The spec's `LEN` (R13). -/
  len : Nat
  deriving DecidableEq, Repr

/-- Why a step makes no transition. Each is raised by `whenRunning` (Machine/Ops.lean), never by an instruction's own
effect, and each is safe: the block makes no transition there either (10_state.md R20). -/
inductive Fault where
  /-- The pass is complete: `err = none` and `offset = LEN` (10_state.md R21 (a); log 5). Raised by `whenRunning`. Safe. -/
  | passDone
  /-- The pass has failed and no transition is enabled until reset (10_state.md R21 (b), 60_exceptions.md R106; log 4).
  Raised by `whenRunning`. Safe. -/
  | passFailed
  /-- `err = none` and `offset > LEN`, which no run reaches (10_state.md R11, R26; log 6). Raised by `whenRunning`, and by
  `step` where there is no byte at the cursor. Safe. -/
  | cursorBeyondBuffer
  deriving DecidableEq, Repr

/-- Why an instruction has no meaning. -/
inductive Refusal where
  /-- The row has no meaning yet. Raised by an arm of `exec` only; no arm does. Safe. -/
  | notModelled (mnemonic : String)
  deriving DecidableEq, Repr

/-- What one step answers. -/
abbrev Outcome := Host.Outcome State Fault Refusal

/-- The machine right after reset with the empty buffer: the caller has supplied no bytes (10_state.md R25; log 3). The reset
with a supplied buffer is `State.resetWith` of Machine/Ops.lean. -/
def State.reset : State :=
  { offset := 0, err := none, out := header, buf := [], len := 0 }

end Sys2Proof.Machine
end

