-- ==== Sys2Proof/Machine/Flags.lean ====
section
/-! DEFINITION. Status. The block has no flags, condition codes or predicates (10_state.md R22): what it has is the three
status conditions derived from the state (R23) and the labels of the error kinds (60_exceptions.md R100). -/

namespace Sys2Proof.Machine

/-- `running = (err = none and offset < LEN)` (10_state.md R23). -/
abbrev State.running (s : State) : Prop := s.err = none ∧ s.offset < s.len

/-- `done = (err = none and offset = LEN)` (10_state.md R23). -/
abbrev State.done (s : State) : Prop := s.err = none ∧ s.offset = s.len

/-- `failed = (err != none)` (10_state.md R23). -/
abbrev State.failed (s : State) : Prop := s.err ≠ none

/-- The numeric label of an error record where a number is needed: 0, 1 or 2 (60_exceptions.md R100, D4; log 19). -/
def errorCode : Option DecodeError → Nat
  | none => 0
  | some (.unsupportedOpcode _ _) => 1
  | some (.truncatedInstruction _ _ _) => 2

end Sys2Proof.Machine
end

