-- ==== Sys2Proof/Syntax.lean ====
section
/-! DEFINITION. The instructions: one constructor per row of spec/opcode_table.json. -/

namespace Sys2Proof

/-- The W flag of an instruction: `w = 0` is a byte operand, `w = 1` a word operand (00_scope.md section 8). -/
inductive Width where
  | byte
  | word
  deriving DecidableEq, Repr

/-- The D flag of the register/memory form: `d = 1` makes the REG side the destination
(42_operand_resolution_and_formatting.md R92). -/
inductive Direction where
  /-- `d = 0`: the RM side is the destination. -/
  | toRm
  /-- `d = 1`: the REG side is the destination. -/
  | toReg
  deriving DecidableEq, Repr

/-- The two-bit `mod` field (30_encoding.md R51, R52). -/
inductive Mod where
  | mod00
  | mod01
  | mod10
  | mod11
  deriving DecidableEq, Repr

/-- One constructor per row of spec/opcode_table.json, with the bytes' operand fields as the encoding holds them.
The `MovRmReg` rows have `d = 0`, the `MovRegRm` rows `d = 1`; `w` is the width bit. -/
inductive Instr where
  /-- `mov reg8, imm8` (R65). -/
  | movReg8Imm8 (reg : RegIndex) (imm : Byte)
  /-- `mov reg16, imm16` (R66). -/
  | movReg16Imm16 (reg : RegIndex) (imm : Half)
  /-- `mov rm_reg, reg`, `mod = 11` (R71). -/
  | movRmRegMod11 (w : Width) (reg rm : RegIndex)
  /-- `mov [base], reg`, `mod = 00`, `rm != 110` (R72). -/
  | movRmRegMod00 (w : Width) (reg rm : RegIndex)
  /-- `mov [addr], reg`, `mod = 00`, `rm = 110` (R73). -/
  | movRmRegDirect (w : Width) (reg : RegIndex) (addr : Half)
  /-- `mov [base + disp8], reg`, `mod = 01` (R74). -/
  | movRmRegMod01 (w : Width) (reg rm : RegIndex) (disp : Byte)
  /-- `mov [base + disp16], reg`, `mod = 10` (R75). -/
  | movRmRegMod10 (w : Width) (reg rm : RegIndex) (disp : Half)
  /-- `mov reg, rm_reg`, `mod = 11` (R76). -/
  | movRegRmMod11 (w : Width) (reg rm : RegIndex)
  /-- `mov reg, [base]`, `mod = 00`, `rm != 110` (R77). -/
  | movRegRmMod00 (w : Width) (reg rm : RegIndex)
  /-- `mov reg, [addr]`, `mod = 00`, `rm = 110` (R78). -/
  | movRegRmDirect (w : Width) (reg : RegIndex) (addr : Half)
  /-- `mov reg, [base + disp8]`, `mod = 01` (R79). -/
  | movRegRmMod01 (w : Width) (reg rm : RegIndex) (disp : Byte)
  /-- `mov reg, [base + disp16]`, `mod = 10` (R80). -/
  | movRegRmMod10 (w : Width) (reg rm : RegIndex) (disp : Half)
  /-- The table's catch-all row: a byte 0 that matches neither MOV pattern (R56, R101; log 17). -/
  | unsupported (byteValue : Byte)
  deriving DecidableEq, Repr

end Sys2Proof
end

