-- ==== Sys2Proof/WellFormed.lean ====
section
/-! DEFINITION. Which instructions have an encoding: the `constraint` entries of spec/opcode_table.json. -/

namespace Sys2Proof

/-- The constraints of the opcode table: the two `mod = 00` rows exclude `rm = 110`, which is the direct address
(30_encoding.md R52), and the catch-all row excludes every byte that starts a supported instruction (30_encoding.md R55). -/
def Instr.wellFormed : Instr → Bool
  | .movReg8Imm8 _ _ => true
  | .movReg16Imm16 _ _ => true
  | .movRmRegMod11 _ _ _ => true
  | .movRmRegMod00 _ _ rm => rm != 0b110#3
  | .movRmRegDirect _ _ _ => true
  | .movRmRegMod01 _ _ _ _ => true
  | .movRmRegMod10 _ _ _ _ => true
  | .movRegRmMod11 _ _ _ => true
  | .movRegRmMod00 _ _ rm => rm != 0b110#3
  | .movRegRmDirect _ _ _ => true
  | .movRegRmMod01 _ _ _ _ => true
  | .movRegRmMod10 _ _ _ _ => true
  | .unsupported b => b &&& 0xF0#8 != 0xB0#8 && b &&& 0xFC#8 != 0x88#8

/-- An instruction that some bytes encode. -/
abbrev WellFormed (i : Instr) : Prop := i.wellFormed = true

end Sys2Proof
end

