-- ==== Sys2Proof/Decode.lean ====
section
/-! DEFINITION. The classifier, the field extractor and the decoder, total on any bytes; after them the encoder,
written from the same formats `I` and `RM` of 30_encoding.md section 1, and the opcode table's rows. -/

namespace Sys2Proof

/-! ## Fields of the bytes -/

/-- A width from its bit: 0 is byte, 1 is word. -/
def Width.ofBit (b : BitVec 1) : Width := if b = 1#1 then .word else .byte

/-- The bit of a width. -/
def Width.bit : Width → BitVec 1
  | .byte => 0#1
  | .word => 1#1

/-- A direction from its bit: 1 makes the REG side the destination. -/
def Direction.ofBit (b : BitVec 1) : Direction := if b = 1#1 then .toReg else .toRm

/-- The bit of a direction. -/
def Direction.bit : Direction → BitVec 1
  | .toRm => 0#1
  | .toReg => 1#1

/-- The addressing case of a two-bit `mod` field. -/
def Mod.ofBits (b : BitVec 2) : Mod :=
  if b = 0b00#2 then .mod00 else if b = 0b01#2 then .mod01 else if b = 0b10#2 then .mod10 else .mod11

/-- The two bits of a `mod` field. -/
def Mod.bits : Mod → BitVec 2
  | .mod00 => 0b00#2
  | .mod01 => 0b01#2
  | .mod10 => 0b10#2
  | .mod11 => 0b11#2

/-- `w = b0[3]` of the immediate form (30_encoding.md R48). -/
def immWidth (b0 : Byte) : Width := .ofBit (b0.extractLsb' 3 1)

/-- `reg = b0[2:0]` of the immediate form (30_encoding.md R48). -/
def immReg (b0 : Byte) : RegIndex := b0.extractLsb' 0 3

/-- `d = b0[1]` of the register/memory form (30_encoding.md R50). -/
def rmDirection (b0 : Byte) : Direction := .ofBit (b0.extractLsb' 1 1)

/-- `w = b0[0]` of the register/memory form (30_encoding.md R50). -/
def rmWidth (b0 : Byte) : Width := .ofBit (b0.extractLsb' 0 1)

/-- `mod = b1[7:6]` (30_encoding.md R51). -/
def modField (b1 : Byte) : Mod := .ofBits (b1.extractLsb' 6 2)

/-- `reg = b1[5:3]` (30_encoding.md R51). -/
def regField (b1 : Byte) : RegIndex := b1.extractLsb' 3 3

/-- `rm = b1[2:0]` (30_encoding.md R51). -/
def rmField (b1 : Byte) : RegIndex := b1.extractLsb' 0 3

/-- Two bytes of the stream as a 16-bit quantity, low byte first (20_memory.md R32, R33). -/
def littleEndian (lo hi : Byte) : Half := hi ++ lo

/-- The low byte of a 16-bit quantity, the first of the two in the stream. -/
def lowByte (h : Half) : Byte := h.extractLsb' 0 8

/-- The high byte of a 16-bit quantity, the second of the two in the stream. -/
def highByte (h : Half) : Byte := h.extractLsb' 8 8

/-! ## The classifier -/

/-- The classifier's verdicts (30_encoding.md R46). -/
inductive Form where
  | immediateToRegister
  | regMemToFromRegister
  | unsupported
  deriving DecidableEq, Repr

/-- `Classify` (30_encoding.md R46): it only peeks at byte 0. -/
def classify (b0 : Byte) : Form :=
  if b0.extractLsb' 4 4 = 0b1011#4 then .immediateToRegister
  else if b0.extractLsb' 2 6 = 0b100010#6 then .regMemToFromRegister
  else .unsupported

/-! ## The decoder -/

/-- What the decoder answers on the bytes that stand at the cursor. -/
inductive Decoded where
  /-- An instruction: a MOV whose bytes are all present, or the catch-all row on an unsupported byte 0. -/
  | instr (i : Instr)
  /-- A recognised form that needs `needed` bytes, of which `seen` were read before that was known
  (20_memory.md R44, 60_exceptions.md R102). -/
  | truncated (seen needed : Nat)
  /-- There is no byte 0. `step` never asks this: a transition exists only below `LEN` (10_state.md R20). -/
  | noByte
  deriving DecidableEq, Repr

/-- The immediate form, after byte 0 (40_mov_immediate_to_register.md R67). Neither immediate byte is read unless both
that the form needs are present (R66). -/
def decodeImmediate (b0 : Byte) (rest : List Byte) : Decoded :=
  match immWidth b0, rest with
  | .byte, imm :: _ => .instr (.movReg8Imm8 (immReg b0) imm)
  | .byte, [] => .truncated 1 2
  | .word, lo :: hi :: _ => .instr (.movReg16Imm16 (immReg b0) (littleEndian lo hi))
  | .word, _ => .truncated 1 3

/-- The register/memory form with `mod = 00`, after byte 1: the direct address when `rm = 110` (30_encoding.md R52). -/
def decodeMod00 (d : Direction) (w : Width) (reg rm : RegIndex) (rest : List Byte) : Decoded :=
  if rm = 0b110#3 then
    match d, rest with
    | .toRm, lo :: hi :: _ => .instr (.movRmRegDirect w reg (littleEndian lo hi))
    | .toReg, lo :: hi :: _ => .instr (.movRegRmDirect w reg (littleEndian lo hi))
    | _, _ => .truncated 2 4
  else
    match d with
    | .toRm => .instr (.movRmRegMod00 w reg rm)
    | .toReg => .instr (.movRegRmMod00 w reg rm)

/-- The register/memory form with `mod = 01`, after byte 1: one displacement byte (30_encoding.md R52). -/
def decodeMod01 (d : Direction) (w : Width) (reg rm : RegIndex) (rest : List Byte) : Decoded :=
  match d, rest with
  | .toRm, disp :: _ => .instr (.movRmRegMod01 w reg rm disp)
  | .toReg, disp :: _ => .instr (.movRegRmMod01 w reg rm disp)
  | _, [] => .truncated 2 3

/-- The register/memory form with `mod = 10`, after byte 1: two displacement bytes (30_encoding.md R52). -/
def decodeMod10 (d : Direction) (w : Width) (reg rm : RegIndex) (rest : List Byte) : Decoded :=
  match d, rest with
  | .toRm, lo :: hi :: _ => .instr (.movRmRegMod10 w reg rm (littleEndian lo hi))
  | .toReg, lo :: hi :: _ => .instr (.movRegRmMod10 w reg rm (littleEndian lo hi))
  | _, _ => .truncated 2 4

/-- The register/memory form with `mod = 11`: no further byte (30_encoding.md R52). -/
def decodeMod11 (d : Direction) (w : Width) (reg rm : RegIndex) : Decoded :=
  match d with
  | .toRm => .instr (.movRmRegMod11 w reg rm)
  | .toReg => .instr (.movRegRmMod11 w reg rm)

/-- The register/memory form, after byte 0 (41_mov_regmem_to_from_register.md R70): byte 1 must be present before its
fields are read. -/
def decodeRegMem (b0 : Byte) (rest : List Byte) : Decoded :=
  match rest with
  | [] => .truncated 1 2
  | b1 :: tail =>
    match modField b1 with
    | .mod00 => decodeMod00 (rmDirection b0) (rmWidth b0) (regField b1) (rmField b1) tail
    | .mod01 => decodeMod01 (rmDirection b0) (rmWidth b0) (regField b1) (rmField b1) tail
    | .mod10 => decodeMod10 (rmDirection b0) (rmWidth b0) (regField b1) (rmField b1) tail
    | .mod11 => decodeMod11 (rmDirection b0) (rmWidth b0) (regField b1) (rmField b1)

/-- The decoder, total on any bytes (00_scope.md R7): byte 0 is classified first, and an unsupported byte 0 ends the
matter whatever follows it (60_exceptions.md R103). -/
def decode (bytes : List Byte) : Decoded :=
  match bytes with
  | [] => .noByte
  | b0 :: rest =>
    match classify b0 with
    | .unsupported => .instr (.unsupported b0)
    | .immediateToRegister => decodeImmediate b0 rest
    | .regMemToFromRegister => decodeRegMem b0 rest

/-! ## The encoder -/

/-- Byte 0 of format `I`: `1011 w reg` (30_encoding.md R45). -/
def immByte0 (w : Width) (reg : RegIndex) : Byte := 0b1011#4 ++ w.bit ++ reg

/-- Byte 0 of format `RM`: `100010 d w` (30_encoding.md R45). -/
def rmByte0 (d : Direction) (w : Width) : Byte := 0b100010#6 ++ d.bit ++ w.bit

/-- Byte 1 of format `RM`: `mod reg rm` (30_encoding.md R45). -/
def rmByte1 (mod : Mod) (reg rm : RegIndex) : Byte := mod.bits ++ reg ++ rm

/-- The bytes of a well-formed instruction, byte 0 first. The block itself never assembles (00_scope.md R3): the encoder
serves statements about the decoder. -/
def encode : Instr → List Byte
  | .movReg8Imm8 reg imm => [immByte0 .byte reg, imm]
  | .movReg16Imm16 reg imm => [immByte0 .word reg, lowByte imm, highByte imm]
  | .movRmRegMod11 w reg rm => [rmByte0 .toRm w, rmByte1 .mod11 reg rm]
  | .movRmRegMod00 w reg rm => [rmByte0 .toRm w, rmByte1 .mod00 reg rm]
  | .movRmRegDirect w reg addr => [rmByte0 .toRm w, rmByte1 .mod00 reg 0b110#3, lowByte addr, highByte addr]
  | .movRmRegMod01 w reg rm disp => [rmByte0 .toRm w, rmByte1 .mod01 reg rm, disp]
  | .movRmRegMod10 w reg rm disp => [rmByte0 .toRm w, rmByte1 .mod10 reg rm, lowByte disp, highByte disp]
  | .movRegRmMod11 w reg rm => [rmByte0 .toReg w, rmByte1 .mod11 reg rm]
  | .movRegRmMod00 w reg rm => [rmByte0 .toReg w, rmByte1 .mod00 reg rm]
  | .movRegRmDirect w reg addr => [rmByte0 .toReg w, rmByte1 .mod00 reg 0b110#3, lowByte addr, highByte addr]
  | .movRegRmMod01 w reg rm disp => [rmByte0 .toReg w, rmByte1 .mod01 reg rm, disp]
  | .movRegRmMod10 w reg rm disp => [rmByte0 .toReg w, rmByte1 .mod10 reg rm, lowByte disp, highByte disp]
  | .unsupported b => [b]

/-! ## The opcode table's rows -/

/-- A row of spec/opcode_table.json as far as bytes 0 and 1 select it: `mask` and `pattern` (the table's `match`) over the
16-bit number `byte0 : byte1`, and whether the row's constraint excludes `rm = 110`. -/
structure OpcodeRow where
  mnemonic : String
  mask : Half
  pattern : Half
  excludesDirect : Bool
  length : Nat
  deriving DecidableEq, Repr

/-- The twelve instruction rows of spec/opcode_table.json, in the table's order. -/
def opcodeTable : List OpcodeRow :=
  [ ⟨"MOV_REG8_IMM8", 0xF800#16, 0xB000#16, false, 2⟩,
    ⟨"MOV_REG16_IMM16", 0xF800#16, 0xB800#16, false, 3⟩,
    ⟨"MOV_RM_REG_MOD11", 0xFEC0#16, 0x88C0#16, false, 2⟩,
    ⟨"MOV_RM_REG_MOD00", 0xFEC0#16, 0x8800#16, true, 2⟩,
    ⟨"MOV_RM_REG_DIRECT", 0xFEC7#16, 0x8806#16, false, 4⟩,
    ⟨"MOV_RM_REG_MOD01", 0xFEC0#16, 0x8840#16, false, 3⟩,
    ⟨"MOV_RM_REG_MOD10", 0xFEC0#16, 0x8880#16, false, 4⟩,
    ⟨"MOV_REG_RM_MOD11", 0xFEC0#16, 0x8AC0#16, false, 2⟩,
    ⟨"MOV_REG_RM_MOD00", 0xFEC0#16, 0x8A00#16, true, 2⟩,
    ⟨"MOV_REG_RM_DIRECT", 0xFEC7#16, 0x8A06#16, false, 4⟩,
    ⟨"MOV_REG_RM_MOD01", 0xFEC0#16, 0x8A40#16, false, 3⟩,
    ⟨"MOV_REG_RM_MOD10", 0xFEC0#16, 0x8A80#16, false, 4⟩ ]

/-- A row applies when `((byte0 << 8) | byte1) & mask = match` and its constraint holds (INDEX.md, "Conventions of
opcode_table.json"). -/
def OpcodeRow.applies (r : OpcodeRow) (b0 b1 : Byte) : Bool :=
  (b0 ++ b1) &&& r.mask == r.pattern && !(r.excludesDirect && b1 &&& 0x07#8 == 0x06#8)

/-- The table's name of an instruction. -/
def Instr.mnemonic : Instr → String
  | .movReg8Imm8 _ _ => "MOV_REG8_IMM8"
  | .movReg16Imm16 _ _ => "MOV_REG16_IMM16"
  | .movRmRegMod11 _ _ _ => "MOV_RM_REG_MOD11"
  | .movRmRegMod00 _ _ _ => "MOV_RM_REG_MOD00"
  | .movRmRegDirect _ _ _ => "MOV_RM_REG_DIRECT"
  | .movRmRegMod01 _ _ _ _ => "MOV_RM_REG_MOD01"
  | .movRmRegMod10 _ _ _ _ => "MOV_RM_REG_MOD10"
  | .movRegRmMod11 _ _ _ => "MOV_REG_RM_MOD11"
  | .movRegRmMod00 _ _ _ => "MOV_REG_RM_MOD00"
  | .movRegRmDirect _ _ _ => "MOV_REG_RM_DIRECT"
  | .movRegRmMod01 _ _ _ _ => "MOV_REG_RM_MOD01"
  | .movRegRmMod10 _ _ _ _ => "MOV_REG_RM_MOD10"
  | .unsupported _ => "UNSUPPORTED"

/-! ## Words numbered as the opcode table numbers them -/

/-- The bytes, lowest address first, of an instruction whose first `nbits` bits are `w` and whose other bits, up to the
longest instruction, are 0. The table numbers bytes 0 and 1 as ONE 16-bit number with byte 0 in bits 15..8 (INDEX.md,
"Conventions of opcode_table.json"); bits above it are the operand bytes in stream order, low byte first (20_memory.md R33);
a row of one byte has byte 0 in bits 7..0. DEDUCED, log 15. -/
def tableBytes (nbits w : Nat) : List Byte :=
  let v := w % 2 ^ nbits
  let byteAt (k : Nat) : Byte := BitVec.ofNat 8 (v / 2 ^ k)
  if nbits ≤ 8 then [byteAt 0, 0#8, 0#8, 0#8] else [byteAt 8, byteAt 0, byteAt 16, byteAt 24]

/-- The instruction the decoder reads from a word numbered as spec/opcode_table.json numbers it (log 15). -/
def decodeTableWord (nbits w : Nat) : Option Instr :=
  match decode (tableBytes nbits w) with
  | .instr i => some i
  | .truncated _ _ => none
  | .noByte => none

end Sys2Proof
end

