-- ==== Sys2Proof/Machine/Operands.lean ====
section
/-! DEFINITION. The constant tables, the BitFields record, operand resolution and the line of an instruction
(10_state.md R15 to R18, 30_encoding.md R52, R53, R61, 42_operand_resolution_and_formatting.md R85 to R94). -/

namespace Sys2Proof.Machine

/-! ## The constant tables -/

/-- The byte-width column of the RegisterTable (10_state.md R16; PRESUMED, log 7). -/
def byteRegisterName (index : RegIndex) : String :=
  match index.toNat with
  | 0 => "al"
  | 1 => "cl"
  | 2 => "dl"
  | 3 => "bl"
  | 4 => "ah"
  | 5 => "ch"
  | 6 => "dh"
  | _ => "bh"

/-- The word-width column of the RegisterTable (10_state.md R16; `ax` and `bx` are the source's, the others PRESUMED, log 7). -/
def wordRegisterName (index : RegIndex) : String :=
  match index.toNat with
  | 0 => "ax"
  | 1 => "cx"
  | 2 => "dx"
  | 3 => "bx"
  | 4 => "sp"
  | 5 => "bp"
  | 6 => "si"
  | _ => "di"

/-- `RegisterTable[index][w]` (10_state.md R16). -/
def registerTable (index : RegIndex) (w : Width) : String :=
  match w with
  | .byte => byteRegisterName index
  | .word => wordRegisterName index

/-- `EffectiveAddressTable[rm]` (10_state.md R17; entry 6 is `bp`, C5; PRESUMED but for the string at index 0, log 8). -/
def effectiveAddressTable (rm : RegIndex) : String :=
  match rm.toNat with
  | 0 => "bx + si"
  | 1 => "bx + di"
  | 2 => "bp + si"
  | 3 => "bp + di"
  | 4 => "si"
  | 5 => "di"
  | 6 => "bp"
  | _ => "bx"

/-! ## The BitFields record -/

/-- The transient BitFields record (10_state.md R15) as a sum of one record per form, so that the fields a form does not
define do not exist (30_encoding.md R61, D11; log 14). `imm` and `disp` are the record's signed `dispOrImm`. -/
inductive BitFields where
  | immediate (w : Width) (reg : RegIndex) (imm : Int)
  | regMem (d : Direction) (w : Width) (mod : Mod) (reg rm : RegIndex) (disp : Int)
  deriving DecidableEq, Repr

/-- `DispLen(mod, rm)` (30_encoding.md R52). -/
def dispLen (mod : Mod) (rm : RegIndex) : Nat :=
  match mod with
  | .mod00 => if rm = 0b110#3 then 2 else 0
  | .mod01 => 1
  | .mod10 => 2
  | .mod11 => 0

/-- The number of immediate bytes less one: `w` as a number (30_encoding.md R53). -/
def widthNumber : Width → Nat
  | .byte => 0
  | .word => 1

/-- The byte length `L`: `2 + w` for the immediate form, `2 + DispLen(mod, rm)` for the register/memory form
(30_encoding.md R53, C3). -/
def BitFields.length : BitFields → Nat
  | .immediate w _ _ => 2 + widthNumber w
  | .regMem _ _ mod _ rm _ => 2 + dispLen mod rm

/-- The bytes that must be present before the length is known: byte 0 alone gives the length of the immediate form, bytes 0
and 1 that of the register/memory form (30_encoding.md R53, 60_exceptions.md R102). -/
def BitFields.prefixLength : BitFields → Nat
  | .immediate w _ _ => 2 + widthNumber w
  | .regMem _ _ _ _ _ _ => 2

/-! ## Operands -/

/-- An operand in its structured form (10_state.md R18, D2; log 22). -/
inductive Operand where
  | reg (index : RegIndex) (w : Width)
  | imm (value : Int)
  | memDirect (value : Int)
  | memBase (rm : RegIndex) (disp : Int)
  deriving DecidableEq, Repr

/-- The RM-side operand by `mod` (42_operand_resolution_and_formatting.md R86). -/
def rmSide (mod : Mod) (rm : RegIndex) (w : Width) (disp : Int) : Operand :=
  match mod with
  | .mod11 => .reg rm w
  | .mod00 => if rm = 0b110#3 then .memDirect disp else .memBase rm disp
  | .mod01 => .memBase rm disp
  | .mod10 => .memBase rm disp

/-- The destination operand (42_operand_resolution_and_formatting.md R92, R93). -/
def BitFields.dest : BitFields → Operand
  | .immediate w reg _ => .reg reg w
  | .regMem .toReg w _ reg _ _ => .reg reg w
  | .regMem .toRm w mod _ rm disp => rmSide mod rm w disp

/-- The source operand (42_operand_resolution_and_formatting.md R92, R93). -/
def BitFields.src : BitFields → Operand
  | .immediate _ _ imm => .imm imm
  | .regMem .toReg w mod _ rm disp => rmSide mod rm w disp
  | .regMem .toRm w _ reg _ _ => .reg reg w

/-- `MemText(rm, disp)` (42_operand_resolution_and_formatting.md R88): the test is on the value, and the absolute value is
that of the mathematical integer. -/
def memText (rm : RegIndex) (disp : Int) : String :=
  if disp = 0 then "[" ++ effectiveAddressTable rm ++ "]"
  else if 0 < disp then "[" ++ effectiveAddressTable rm ++ " + " ++ decText disp ++ "]"
  else "[" ++ effectiveAddressTable rm ++ " - " ++ natText disp.natAbs ++ "]"

/-- `Text` of an operand (42_operand_resolution_and_formatting.md R85, R87, R88, R91). -/
def Operand.text : Operand → String
  | .reg index w => registerTable index w
  | .imm value => decText value
  | .memDirect value => "[" ++ decText value ++ "]"
  | .memBase rm disp => memText rm disp

/-- The output line `"mov " ++ Text(dest) ++ ", " ++ Text(src)` (42_operand_resolution_and_formatting.md R94). -/
def lineText (dest src : Operand) : String := "mov " ++ dest.text ++ ", " ++ src.text

end Sys2Proof.Machine
end

