-- ==== Sys2Proof/Machine/Ops.lean ====
section
/-! DEFINITION. The named operations over the buffer and the state: reading and loading the buffer, reset, raising an
error, the enabling guard, the bound check, and the effect of one decoded instruction. -/

namespace Sys2Proof.Machine

/-! ## The buffer -/

/-- The byte at an address of the buffer. -/
def Memory.read (m : Memory) (a : Nat) : Byte :=
  match m with
  | [] => Config.unlistedByte
  | c :: rest => if a = c.1 then c.2 else Memory.read rest a

/-- A cell in front of a memory, unless it says what an unlisted address reads as. -/
def Memory.cons (a : Nat) (b : Byte) (m : Memory) : Memory :=
  if b = Config.unlistedByte then m else (a, b) :: m

/-- One byte placed at an address, keeping the canonical form. The block has no store (00_scope.md R6, `MemWrite`): this is
the caller filling the buffer before a pass (70_reset_and_hazards.md R122). -/
def Memory.write (m : Memory) (a : Nat) (b : Byte) : Memory :=
  match m with
  | [] => Memory.cons a b []
  | c :: rest =>
    if a < c.1 then Memory.cons a b (c :: rest)
    else if a = c.1 then Memory.cons a b rest
    else c :: Memory.write rest a b

/-- Bytes placed at rising addresses from `a` on. -/
def Memory.writeBytes (m : Memory) (a : Nat) (bytes : List Byte) : Memory :=
  match bytes with
  | [] => m
  | b :: rest => Memory.writeBytes (Memory.write m a b) (a + 1) rest

/-- `MemRead(addr, 1)`, defined only when `addr + 1 <= LEN` (20_memory.md R31, R32). -/
def State.memRead1 (s : State) (addr : Nat) : Option Byte :=
  if addr + 1 ≤ s.len then some (s.buf.read addr) else none

/-- `MemRead(addr, 2) = buf[addr + 1] : buf[addr]`, defined only when `addr + 2 <= LEN` (20_memory.md R31, R32). -/
def State.memRead2 (s : State) (addr : Nat) : Option Half :=
  if addr + 2 ≤ s.len then some (littleEndian (s.buf.read addr) (s.buf.read (addr + 1))) else none

/-- Up to `n` bytes from `addr` on, in rising order, none at or beyond `LEN`: the bound check of a byte precedes its read
(20_memory.md R31, R44). -/
def State.fetchBytes (s : State) (addr n : Nat) : List Byte :=
  match n with
  | 0 => []
  | n + 1 =>
    match s.memRead1 addr with
    | none => []
    | some b => b :: s.fetchBytes (addr + 1) n

/-- The bytes at the cursor that the decoder may look at: as many as the longest instruction has, less those that do not
exist (30_encoding.md R45; log 18). -/
def State.window (s : State) : List Byte := s.fetchBytes s.offset Config.longestInstruction

/-! ## Reset -/

/-- `Reset(buf, LEN)` (70_reset_and_hazards.md R120) with the caller's bytes. -/
def State.resetWith (bytes : List Byte) : State :=
  { offset := 0, err := none, out := header, buf := Memory.writeBytes [] 0 bytes, len := bytes.length }

/-- Reset asserted in any state: nothing of an earlier pass survives it (70_reset_and_hazards.md R120; log 20). -/
def assertReset (_ : State) (bytes : List Byte) : State := .resetWith bytes

/-! ## Updates of the state -/

/-- `offset <- v`. -/
def State.setOffset (s : State) (v : Nat) : State := { s with offset := v }

/-- `err <- e`. -/
def State.setErr (s : State) (e : DecodeError) : State := { s with err := some e }

/-- `out <- out ++ [line]` (10_state.md R14). -/
def State.appendLine (s : State) (line : String) : State := { s with out := s.out ++ [line] }

/-! ## Errors and guards -/

/-- Taking an exception (60_exceptions.md R104): `err` is written, nothing else is, and no further transition is enabled.
There is no saved program counter, status or vector. There is no return from it either (R106): only a reset clears `err`. -/
def raise (e : DecodeError) (s : State) : Outcome := .next (s.setErr e)

/-- A transition exists only when `err = none` and `offset < LEN` (10_state.md R20); elsewhere the step stops by name
(R21; log 4, 5, 6). -/
def whenRunning (s : State) (transition : Outcome) : Outcome :=
  if s.err ≠ none then .fault .passFailed
  else if s.offset < s.len then transition
  else if s.offset = s.len then .fault .passDone
  else .fault .cursorBeyondBuffer

/-- The bound check (20_memory.md R31, 60_exceptions.md R102): `needed` bytes counted from byte 0 must be present, or
`TruncatedInstruction` is raised (its numbers: D6, log 10). -/
def requireBytes (needed : Nat) (s : State) (transition : Outcome) : Outcome :=
  if s.offset + needed > s.len then raise (.truncatedInstruction s.offset needed (s.len - s.offset)) s
  else transition

/-! ## The effect of one decoded instruction -/

/-- The end of a successful transition: the line is appended and the cursor advances by the instruction's length
(10_state.md R20, 30_encoding.md R54). -/
def retire (f : BitFields) (s : State) : Outcome :=
  .next ((s.appendLine (lineText f.dest f.src)).setOffset (s.offset + f.length))

/-- One transition of a recognised form from its BitFields record (10_state.md R20, 40_mov_immediate_to_register.md R67,
41_mov_regmem_to_from_register.md R70): the enabling guard, the bound check for the bytes that fix the length, the bound
check for the whole instruction, then the effect. -/
def transition (f : BitFields) (s : State) : Outcome :=
  whenRunning s (requireBytes f.prefixLength s (requireBytes f.length s (retire f s)))

end Sys2Proof.Machine
end

