-- ==== Sys2Proof/Machine/MovImmediate.lean ====
section
/-! DEFINITION. MOV immediate to register (40_mov_immediate_to_register.md). The 8-bit immediate is sign-extended
(30_encoding.md R49). -/

namespace Sys2Proof.Machine

/-- MOV_REG8_IMM8 (R65). -/
def execMovReg8Imm8 (reg : RegIndex) (imm : Byte) (s : State) : Outcome :=
  transition (.immediate .byte reg imm.toInt) s

/-- MOV_REG16_IMM16 (R66). -/
def execMovReg16Imm16 (reg : RegIndex) (imm : Half) (s : State) : Outcome :=
  transition (.immediate .word reg imm.toInt) s

end Sys2Proof.Machine
end

