-- ==== Sys2Proof/Machine/MovRegMem.lean ====
section
/-! DEFINITION. MOV register/memory to/from register (41_mov_regmem_to_from_register.md). Displacements and direct
addresses are signed (30_encoding.md R52, C2); where no displacement byte is present the displacement is 0 (D11, log 14). -/

namespace Sys2Proof.Machine

/-! ## `d = 0`: the RM side is the destination -/

/-- MOV_RM_REG_MOD11 (R71). -/
def execMovRmRegMod11 (w : Width) (reg rm : RegIndex) (s : State) : Outcome :=
  transition (.regMem .toRm w .mod11 reg rm 0) s

/-- MOV_RM_REG_MOD00 (R72). -/
def execMovRmRegMod00 (w : Width) (reg rm : RegIndex) (s : State) : Outcome :=
  transition (.regMem .toRm w .mod00 reg rm 0) s

/-- MOV_RM_REG_DIRECT (R73). -/
def execMovRmRegDirect (w : Width) (reg : RegIndex) (addr : Half) (s : State) : Outcome :=
  transition (.regMem .toRm w .mod00 reg 0b110#3 addr.toInt) s

/-- MOV_RM_REG_MOD01 (R74). -/
def execMovRmRegMod01 (w : Width) (reg rm : RegIndex) (disp : Byte) (s : State) : Outcome :=
  transition (.regMem .toRm w .mod01 reg rm disp.toInt) s

/-- MOV_RM_REG_MOD10 (R75). -/
def execMovRmRegMod10 (w : Width) (reg rm : RegIndex) (disp : Half) (s : State) : Outcome :=
  transition (.regMem .toRm w .mod10 reg rm disp.toInt) s

/-! ## `d = 1`: the REG side is the destination -/

/-- MOV_REG_RM_MOD11 (R76). -/
def execMovRegRmMod11 (w : Width) (reg rm : RegIndex) (s : State) : Outcome :=
  transition (.regMem .toReg w .mod11 reg rm 0) s

/-- MOV_REG_RM_MOD00 (R77). -/
def execMovRegRmMod00 (w : Width) (reg rm : RegIndex) (s : State) : Outcome :=
  transition (.regMem .toReg w .mod00 reg rm 0) s

/-- MOV_REG_RM_DIRECT (R78). -/
def execMovRegRmDirect (w : Width) (reg : RegIndex) (addr : Half) (s : State) : Outcome :=
  transition (.regMem .toReg w .mod00 reg 0b110#3 addr.toInt) s

/-- MOV_REG_RM_MOD01 (R79). -/
def execMovRegRmMod01 (w : Width) (reg rm : RegIndex) (disp : Byte) (s : State) : Outcome :=
  transition (.regMem .toReg w .mod01 reg rm disp.toInt) s

/-- MOV_REG_RM_MOD10 (R80). -/
def execMovRegRmMod10 (w : Width) (reg rm : RegIndex) (disp : Half) (s : State) : Outcome :=
  transition (.regMem .toReg w .mod10 reg rm disp.toInt) s

end Sys2Proof.Machine
end

