-- ==== Sys2Proof/Machine/Unsupported.lean ====
section
/-! DEFINITION. The opcode table's catch-all row (60_exceptions.md R101): its effect is to raise `UnsupportedOpcode`. -/

namespace Sys2Proof.Machine

/-- UNSUPPORTED (R101): the record names the cursor and the offending byte (log 17). -/
def execUnsupported (byteValue : Byte) (s : State) : Outcome :=
  whenRunning s (raise (.unsupportedOpcode s.offset byteValue) s)

end Sys2Proof.Machine
end

