-- ==== Sys2Proof/Machine/Dispatch.lean ====
section
/-! DEFINITION. One arm per instruction. -/

namespace Sys2Proof.Machine

/-- The meaning of an instruction (10_state.md R20). -/
def exec (i : Instr) (s : State) : Host.Outcome State Fault Refusal :=
  match i with
  | .movReg8Imm8 reg imm => Sys2Proof.Machine.execMovReg8Imm8 reg imm s
  | .movReg16Imm16 reg imm => Sys2Proof.Machine.execMovReg16Imm16 reg imm s
  | .movRmRegMod11 w reg rm => Sys2Proof.Machine.execMovRmRegMod11 w reg rm s
  | .movRmRegMod00 w reg rm => Sys2Proof.Machine.execMovRmRegMod00 w reg rm s
  | .movRmRegDirect w reg addr => Sys2Proof.Machine.execMovRmRegDirect w reg addr s
  | .movRmRegMod01 w reg rm disp => Sys2Proof.Machine.execMovRmRegMod01 w reg rm disp s
  | .movRmRegMod10 w reg rm disp => Sys2Proof.Machine.execMovRmRegMod10 w reg rm disp s
  | .movRegRmMod11 w reg rm => Sys2Proof.Machine.execMovRegRmMod11 w reg rm s
  | .movRegRmMod00 w reg rm => Sys2Proof.Machine.execMovRegRmMod00 w reg rm s
  | .movRegRmDirect w reg addr => Sys2Proof.Machine.execMovRegRmDirect w reg addr s
  | .movRegRmMod01 w reg rm disp => Sys2Proof.Machine.execMovRegRmMod01 w reg rm disp s
  | .movRegRmMod10 w reg rm disp => Sys2Proof.Machine.execMovRegRmMod10 w reg rm disp s
  | .unsupported byteValue => Sys2Proof.Machine.execUnsupported byteValue s

end Sys2Proof.Machine
end

