-- ==== Sys2Proof/Machine/Step.lean ====
section
/-! DEFINITION. One transition of the block (10_state.md R20). -/

namespace Sys2Proof.Machine

/-- `Step()` (10_state.md R20): enabled only when running; the bytes at the cursor are decoded; an instruction runs; a
recognised form with missing bytes raises `TruncatedInstruction` (60_exceptions.md R102). The last arm is never reached
when running. -/
def step (s : State) : Host.Outcome State Fault Refusal :=
  whenRunning s
    (match decode s.window with
     | .instr i => exec i s
     | .truncated _ needed => raise (.truncatedInstruction s.offset needed (s.len - s.offset)) s
     | .noByte => .fault .cursorBeyondBuffer)

/-- `s` with an instruction, its bits numbered as the opcode table numbers them, placed in the buffer at the cursor, the
buffer long enough to hold it and the error record clear, so that the next step runs it. This stands for the caller's
supply of a buffer and its length (70_reset_and_hazards.md R122; log 3, 16). -/
def State.withFetchWord (s : State) (nbits w : Nat) : State :=
  { s with
    buf := s.buf.writeBytes s.offset (tableBytes nbits w)
    len := max s.len (s.offset + Config.longestInstruction)
    err := none }

end Sys2Proof.Machine
end

