-- ==== Sys2Proof/Machine/Pseudocode.lean ====
section
/-! DEFINITION. The spec's own pseudocode of one transition, transcribed line by line and apart from the decoder, the
instruction type and the dispatch: 10_state.md R20, 40_mov_immediate_to_register.md R67 and
41_mov_regmem_to_from_register.md R70, with fields taken by division and remainder and signs by comparison
(00_scope.md section 5). `step` does not use it; a statement says that the two agree. -/

namespace Sys2Proof.Machine.Pseudocode

/-- `buf[addr]` as a number. -/
def byteAt (s : State) (addr : Nat) : Nat := (s.buf.read addr).toNat

/-- `MemRead(addr, 2)` as a number: `buf[addr] + 256 * buf[addr + 1]` (20_memory.md R32). -/
def halfAt (s : State) (addr : Nat) : Nat := byteAt s addr + 256 * byteAt s (addr + 1)

/-- `sext_16` of an 8-bit value. -/
def sextByte (v : Nat) : Int := if v < 128 then v else (v : Int) - 256

/-- `sext_16` of a 16-bit value. -/
def sextHalf (v : Nat) : Int := if v < 32768 then v else (v : Int) - 65536

/-- `Text(Reg(i, w))` with `i` and `w` as numbers. -/
def regText (i w : Nat) : String := registerTable (BitVec.ofNat 3 i) (if w = 1 then .word else .byte)

/-- `MemText(rm, disp)` (42_operand_resolution_and_formatting.md R88). -/
def memBaseText (rm : Nat) (disp : Int) : String :=
  "[" ++ effectiveAddressTable (BitVec.ofNat 3 rm) ++
    (if disp = 0 then "" else if disp > 0 then " + " ++ decText disp else " - " ++ decText |disp|) ++ "]"

/-- `raise TruncatedInstruction(offset, needed, LEN - offset)` (60_exceptions.md R102, R104). -/
def truncated (s : State) (needed : Nat) : Outcome :=
  .next { s with err := some (.truncatedInstruction s.offset needed (s.len - s.offset)) }

/-- The two writes that end a successful transition (10_state.md R20). -/
def finish (s : State) (length : Nat) (dest src : String) : Outcome :=
  .next { s with out := s.out ++ ["mov " ++ dest ++ ", " ++ src], offset := s.offset + length }

/-- `DecodeImmediateToRegister` (R67). -/
def immediateToRegister (s : State) (b0 : Nat) : Outcome :=
  let w := b0 / 8 % 2
  let reg := b0 % 8
  let length := 2 + w
  if s.offset + length > s.len then truncated s length
  else
    let imm := if w = 0 then sextByte (byteAt s (s.offset + 1)) else sextHalf (halfAt s (s.offset + 1))
    finish s length (regText reg w) (decText imm)

/-- `DispLen(mod, rm)` (30_encoding.md R52). -/
def dispLength (mod rm : Nat) : Nat :=
  if mod = 3 then 0 else if mod = 0 then (if rm = 6 then 2 else 0) else if mod = 1 then 1 else 2

/-- `DecodeRegMemToFromRegister` (R70). -/
def regMemToFromRegister (s : State) (b0 : Nat) : Outcome :=
  let d := b0 / 2 % 2
  let w := b0 % 2
  if s.offset + 2 > s.len then truncated s 2
  else
    let b1 := byteAt s (s.offset + 1)
    let mod := b1 / 64
    let reg := b1 / 8 % 8
    let rm := b1 % 8
    let n := dispLength mod rm
    let length := 2 + n
    if s.offset + length > s.len then truncated s length
    else
      let disp : Int :=
        if n = 0 then 0
        else if n = 1 then sextByte (byteAt s (s.offset + 2))
        else sextHalf (halfAt s (s.offset + 2))
      let regSide := regText reg w
      let rmSide :=
        if mod = 3 then regText rm w
        else if mod = 0 ∧ rm = 6 then "[" ++ decText disp ++ "]"
        else memBaseText rm disp
      if d = 1 then finish s length regSide rmSide else finish s length rmSide regSide

/-- `Step()` of 10_state.md R20, in a state in which it is enabled. -/
def stepEnabled (s : State) : Outcome :=
  let b0 := byteAt s s.offset
  if b0 / 16 = 0b1011 then immediateToRegister s b0
  else if b0 / 4 = 0b100010 then regMemToFromRegister s b0
  else .next { s with err := some (.unsupportedOpcode s.offset (BitVec.ofNat 8 b0)) }

end Sys2Proof.Machine.Pseudocode
end

