-- ==== Sys2Proof/Machine/Interface.lean ====
section
/-! DEFINITION. The abstract interface of the block (70_reset_and_hazards.md R128): what the caller sees of one transition.
Nothing here is used by `step`; each is a view of it. -/

namespace Sys2Proof.Machine

/-- The BitFields record of an instruction (30_encoding.md R61); the catch-all row has none. -/
def bitFields : Instr → Option BitFields
  | .movReg8Imm8 reg imm => some (.immediate .byte reg imm.toInt)
  | .movReg16Imm16 reg imm => some (.immediate .word reg imm.toInt)
  | .movRmRegMod11 w reg rm => some (.regMem .toRm w .mod11 reg rm 0)
  | .movRmRegMod00 w reg rm => some (.regMem .toRm w .mod00 reg rm 0)
  | .movRmRegDirect w reg addr => some (.regMem .toRm w .mod00 reg 0b110#3 addr.toInt)
  | .movRmRegMod01 w reg rm disp => some (.regMem .toRm w .mod01 reg rm disp.toInt)
  | .movRmRegMod10 w reg rm disp => some (.regMem .toRm w .mod10 reg rm disp.toInt)
  | .movRegRmMod11 w reg rm => some (.regMem .toReg w .mod11 reg rm 0)
  | .movRegRmMod00 w reg rm => some (.regMem .toReg w .mod00 reg rm 0)
  | .movRegRmDirect w reg addr => some (.regMem .toReg w .mod00 reg 0b110#3 addr.toInt)
  | .movRegRmMod01 w reg rm disp => some (.regMem .toReg w .mod01 reg rm disp.toInt)
  | .movRegRmMod10 w reg rm disp => some (.regMem .toReg w .mod10 reg rm disp.toInt)
  | .unsupported _ => none

/-- The `ins` event of one transition (R128), the structured form of the line: DecodedInstruction (10_state.md R18) with the
length `L`. -/
structure InsEvent where
  mnemonic : String
  dest : Operand
  src : Operand
  length : Nat
  deriving DecidableEq, Repr

/-- The event a BitFields record gives. -/
def BitFields.event (f : BitFields) : InsEvent :=
  { mnemonic := "mov", dest := f.dest, src := f.src, length := f.length }

/-- The `line` event of an `ins` event (R128, 42_operand_resolution_and_formatting.md R94). -/
def InsEvent.line (e : InsEvent) : String := e.mnemonic ++ " " ++ e.dest.text ++ ", " ++ e.src.text

/-- The `ins` event of the transition from `s`; none where the transition raises an error or does not exist. -/
def insEvent (s : State) : Option InsEvent :=
  if s.err = none ∧ s.offset < s.len then
    match decode s.window with
    | .instr i => (bitFields i).map BitFields.event
    | .truncated _ _ => none
    | .noByte => none
  else none

/-- How many bytes a transition reads (20_memory.md R35, R44): the instruction's own, byte 0 alone when it is unsupported
(60_exceptions.md R101), and those read before the failing bound check when it is truncated. -/
def bytesRead : Decoded → Nat
  | .instr i => (encode i).length
  | .truncated seen _ => seen
  | .noByte => 0

/-- The indices that appear on `buf_addr` during the transition from `s`, in order (R128, 20_memory.md R44). -/
def bufReads (s : State) : List Nat :=
  if s.err = none ∧ s.offset < s.len then List.range' s.offset (bytesRead (decode s.window)) else []

/-- The output line of an instruction; the catch-all row has none. -/
def instrLine (i : Instr) : Option String := (bitFields i).map fun f => lineText f.dest f.src

end Sys2Proof.Machine
end

