-- ==== Sys2Proof/Machine/Pass.lean ====
section
/-! DEFINITION. A decode pass (10_state.md R21) and the block as a function of its buffer (70_reset_and_hazards.md R128). -/

namespace Sys2Proof.Machine

/-- Transitions from `s`, at most `fuel` of them, until none is enabled. -/
def runPass (fuel : Nat) (s : State) : State :=
  match fuel with
  | 0 => s
  | fuel + 1 =>
    match step s with
    | .next t => runPass fuel t
    | .fault _ => s
    | .refused _ => s

/-- The terminal state of the pass over a buffer: a pass makes at most `floor(LEN / 2) + 1` transitions (R21,
70_reset_and_hazards.md R126). -/
def decodePass (bytes : List Byte) : State := runPass (bytes.length / 2 + 1) (.resetWith bytes)

/-- `Decode(buf, LEN) = (out, offset, err)` (70_reset_and_hazards.md R128). -/
def decodeBuffer (bytes : List Byte) : List String × Nat × Option DecodeError :=
  ((decodePass bytes).out, (decodePass bytes).offset, (decodePass bytes).err)

end Sys2Proof.Machine
end

