-- ==== Sys2Proof/Safety.lean ====
section
/-! DEFINITION. What counts as a safe state and a safe run, in the terms the claims use. -/

namespace Sys2Proof.Machine

/-- The bytes of a memory at `a`, `a + 1`, …, `n` of them. -/
def Memory.slice (m : Memory) (a n : Nat) : List Byte :=
  match n with
  | 0 => []
  | n + 1 => m.read a :: Memory.slice m (a + 1) n

/-- A supported instruction: well formed and not the catch-all row. -/
def Supported (i : Instr) : Prop := WellFormed i ∧ bitFields i ≠ none

/-- The cursor stands at an instruction boundary of the linear scan, and `out` is the header and one line per instruction
before it, in input order (10_state.md R14, R26, 60_exceptions.md R105). -/
def State.Scanned (s : State) : Prop :=
  ∃ program : List Instr,
    (∀ i ∈ program, Supported i) ∧
    s.buf.slice 0 s.offset = program.flatMap encode ∧
    s.out = header ++ program.filterMap instrLine

/-- The error record names the failure at the cursor (10_state.md R12, 60_exceptions.md R101, R102). -/
def State.ErrTruthful (s : State) : Prop :=
  match s.err with
  | none => True
  | some (.unsupportedOpcode offset byteValue) =>
      offset = s.offset ∧ s.offset < s.len ∧ byteValue = s.buf.read s.offset ∧ classify byteValue = .unsupported
  | some (.truncatedInstruction offset needed available) =>
      offset = s.offset ∧ available = s.len - s.offset ∧ 1 ≤ available ∧ available < needed ∧
        needed ≤ Config.longestInstruction ∧ ∃ seen, decode s.window = .truncated seen needed

/-- The invariant of every reachable state. -/
structure State.Inv (s : State) : Prop where
  /-- `0 <= offset <= LEN` (10_state.md R11, R26). -/
  cursor_le : s.offset ≤ s.len
  /-- The buffer is in canonical form. -/
  buf_wf : s.buf.wf
  /-- The buffer lists no index that does not exist (20_memory.md R36). -/
  buf_bounded : ∀ c ∈ s.buf, c.1 < s.len
  /-- The error record is truthful. -/
  err_truthful : s.ErrTruthful
  /-- The output is that of the bytes before the cursor. -/
  scanned : s.Scanned

/-- No transition is enabled, for one of the two reasons the spec gives (10_state.md R21). -/
def State.Terminal (s : State) : Prop := s.done ∨ s.failed

/-- The grammar of the output lines (42_operand_resolution_and_formatting.md R96): `unsigned`. -/
def isUnsigned : List Char → Bool
  | [] => false
  | [c] => c.isDigit
  | c :: rest => c.isDigit && c != '0' && rest.all Char.isDigit

/-- R96: `number`. -/
def isNumber (t : String) : Prop :=
  isUnsigned t.toList = true ∨ ∃ u : String, t = "-" ++ u ∧ isUnsigned u.toList = true

/-- R96: `register`. -/
def isRegister (t : String) : Prop :=
  t ∈ ["al", "cl", "dl", "bl", "ah", "ch", "dh", "bh", "ax", "cx", "dx", "bx", "sp", "bp", "si", "di"]

/-- R96: `base`. -/
def isBase (t : String) : Prop :=
  t ∈ ["bx + si", "bx + di", "bp + si", "bp + di", "si", "di", "bp", "bx"]

/-- R96: `memory`. -/
def isMemory (t : String) : Prop :=
  (∃ n, isNumber n ∧ t = "[" ++ n ++ "]") ∨
  (∃ b, isBase b ∧ t = "[" ++ b ++ "]") ∨
  (∃ b u, isBase b ∧ isUnsigned u.toList = true ∧ (t = "[" ++ b ++ " + " ++ u ++ "]" ∨ t = "[" ++ b ++ " - " ++ u ++ "]"))

/-- R96: `line`, with the four operand shapes a line can have. -/
def isLine (t : String) : Prop :=
  ∃ d s : String, t = "mov " ++ d ++ ", " ++ s ∧
    ((isRegister d ∧ isNumber s) ∨ (isRegister d ∧ isRegister s) ∨ (isRegister d ∧ isMemory s) ∨
      (isMemory d ∧ isRegister s))

end Sys2Proof.Machine
end

