-- ==== Sys2Proof/Certificates/Slice0/Obligations.lean ====
section
/-! DEFINITION. The statements for the provers. Register names and base expressions enter only through `registerTable` and
`effectiveAddressTable`, except where a docstring says so, so no other statement rests on the tables' contents (log 7, 8). -/

open Sys2Proof Sys2Proof.Machine

/-! ## The classifier, the field extractor, the encoding -/

/-- 30_encoding.md R46: top four bits `1011`, else top six bits `100010`, else unsupported. -/
def Obligations.ClassifierTestsTopBits : Prop :=
  ∀ b0 : Byte, classify b0 =
    if b0.toNat / 16 = 0b1011 then .immediateToRegister
    else if b0.toNat / 4 = 0b100010 then .regMemToFromRegister
    else .unsupported

/-- 30_encoding.md R48, R49: the fields of the immediate form, its immediate signed and little-endian, and the bytes
consumed after byte 0. -/
def Obligations.ImmediateFormFields : Prop :=
  ∀ (b0 lo hi : Byte) (rest : List Byte), classify b0 = .immediateToRegister →
    ∃ i, decode (b0 :: lo :: hi :: rest) = .instr i ∧
      bitFields i = some
        (if b0.toNat / 8 % 2 = 0
          then .immediate .byte (BitVec.ofNat 3 (b0.toNat % 8)) (Pseudocode.sextByte lo.toNat)
          else .immediate .word (BitVec.ofNat 3 (b0.toNat % 8)) (Pseudocode.sextHalf (lo.toNat + 256 * hi.toNat))) ∧
      (encode i).length = if b0.toNat / 8 % 2 = 0 then 1 + 1 else 1 + 2

/-- The fields of the register/memory form, of both bytes, and the displacement (30_encoding.md section 4, R50 to R52). That
the displacement is 0 where no displacement byte is present is the spec's decision D11 (log 14). -/
def Obligations.RegMemFormFields : Prop :=
  ∀ (b0 b1 lo hi : Byte) (rest : List Byte), classify b0 = .regMemToFromRegister →
    ∃ i, decode (b0 :: b1 :: lo :: hi :: rest) = .instr i ∧
      ∃ d w mod disp,
        bitFields i = some (.regMem d w mod (BitVec.ofNat 3 (b1.toNat / 8 % 8)) (BitVec.ofNat 3 (b1.toNat % 8)) disp) ∧
        d.bit.toNat = b0.toNat / 2 % 2 ∧
        w.bit.toNat = b0.toNat % 2 ∧
        mod.bits.toNat = b1.toNat / 64 ∧
        disp =
          if Pseudocode.dispLength (b1.toNat / 64) (b1.toNat % 8) = 0 then 0
          else if Pseudocode.dispLength (b1.toNat / 64) (b1.toNat % 8) = 1 then Pseudocode.sextByte lo.toNat
          else Pseudocode.sextHalf (lo.toNat + 256 * hi.toNat)

/-- Words written out from the encodings of opcode_table.json, one of each addressing case and one unsupported byte. -/
def Obligations.DecodeOfWrittenOutWords : Prop :=
  decode [0b10110000#8, 0xFF#8] = .instr (.movReg8Imm8 0b000#3 0xFF#8) ∧
  decode [0b10111011#8, 0x34#8, 0x12#8] = .instr (.movReg16Imm16 0b011#3 0x1234#16) ∧
  decode [0b10001001#8, 0b11011000#8] = .instr (.movRmRegMod11 .word 0b011#3 0b000#3) ∧
  decode [0b10001000#8, 0b00001010#8] = .instr (.movRmRegMod00 .byte 0b001#3 0b010#3) ∧
  decode [0b10001011#8, 0b00011110#8, 0x34#8, 0x12#8] = .instr (.movRegRmDirect .word 0b011#3 0x1234#16) ∧
  decode [0b10001010#8, 0b01100000#8, 0x04#8] = .instr (.movRegRmMod01 .byte 0b100#3 0b000#3 0x04#8) ∧
  decode [0b10001001#8, 0b10001100#8, 0xD4#8, 0xFE#8] = .instr (.movRmRegMod10 .word 0b001#3 0b100#3 0xFED4#16) ∧
  decode [0x8C#8, 0xD8#8] = .instr (.unsupported 0x8C#8)

/-- Decoding an encoded well-formed instruction gives it back, whatever bytes follow. -/
def Obligations.DecodeInvertsEncode : Prop :=
  ∀ (i : Instr) (rest : List Byte), WellFormed i → decode (encode i ++ rest) = .instr i

/-- Each instruction has one encoding: what decodes to it begins with exactly its bytes, and it is well formed. -/
def Obligations.EncodeInvertsDecode : Prop :=
  ∀ (bytes : List Byte) (i : Instr), decode bytes = .instr i →
    WellFormed i ∧ ∃ rest, bytes = encode i ++ rest

/-- The rows of opcode_table.json are exclusive and exhaustive, and the decoder gives the row that applies, with its length. -/
def Obligations.OpcodeTableSelectsOneRow : Prop :=
  ∀ b0 b1 lo hi : Byte, ∃ i, decode [b0, b1, lo, hi] = .instr i ∧
    (opcodeTable.filter fun r => r.applies b0 b1).map (fun r => (r.mnemonic, r.length)) =
      if classify b0 = .unsupported then [] else [(i.mnemonic, (encode i).length)]

/-- `bytesNeeded` is the least length that an instruction beginning with the bytes present can have. The convention is the
spec's decision D6 (log 10). -/
def Obligations.TruncationNeedsLeastLength : Prop :=
  ∀ (bytes : List Byte) (seen needed : Nat), decode bytes = .truncated seen needed →
    1 ≤ seen ∧ seen ≤ bytes.length ∧ bytes.length < needed ∧ needed ≤ 4 ∧
    (∀ more i, decode (bytes ++ more) = .instr i → needed ≤ (encode i).length) ∧
    (∃ more i, decode (bytes ++ more) = .instr i ∧ (encode i).length = needed)

/-! ## The buffer -/

/-- 20_memory.md R32: `MemRead` of one and of two bytes, low byte first, defined only inside the buffer. -/
def Obligations.MemReadLittleEndian : Prop :=
  ∀ (s : State) (addr : Nat),
    (addr + 1 ≤ s.len → s.memRead1 addr = some (s.buf.read addr)) ∧
    (addr + 2 ≤ s.len → ∃ v, s.memRead2 addr = some v ∧ v = s.buf.read (addr + 1) ++ s.buf.read addr ∧
      v.toNat = (s.buf.read addr).toNat + 256 * (s.buf.read (addr + 1)).toNat) ∧
    (s.len < addr + 1 → s.memRead1 addr = none) ∧
    (s.len < addr + 2 → s.memRead2 addr = none)

/-- After reset every index of the buffer reads as the caller's byte, and the length is the count of those bytes. -/
def Obligations.ResetBufferReadsCallersBytes : Prop :=
  ∀ bytes : List Byte, (State.resetWith bytes).len = bytes.length ∧
    ∀ (k : Nat) (h : k < bytes.length), (State.resetWith bytes).buf.read k = bytes[k]

/-- A transition reads only indices below `LEN`, in rising order from the cursor and none twice, and at most four. -/
def Obligations.ReadsStayInsideTheBuffer : Prop :=
  ∀ s : State, (∀ a ∈ bufReads s, s.offset ≤ a ∧ a < s.len) ∧ (bufReads s).Pairwise (· < ·) ∧
    (bufReads s).length ≤ 4 ∧ (s.running → (bufReads s).head? = some s.offset)

/-- A transition depends on the buffer only through the bytes it reads: with those equal, two buffers of one length give
the same transition, each keeping its own buffer. -/
def Obligations.StepDependsOnlyOnBytesRead : Prop :=
  ∀ (s : State) (other : Memory), (∀ a ∈ bufReads s, other.read a = s.buf.read a) →
    step { s with buf := other } =
      match step s with
      | .next t => .next { t with buf := other }
      | .fault f => .fault f
      | .refused r => .refused r

/-! ## Reset and status -/

/-- The state after reset. That the header is in `out` from reset on is the spec's decision D8 (log 13), that reset may be
asserted in any state is D12 (log 20), and that `State.reset` is the reset with the empty buffer is the model's choice (log 3). -/
def Obligations.ResetValues : Prop :=
  (∀ (s : State) (bytes : List Byte),
    (assertReset s bytes).offset = 0 ∧ (assertReset s bytes).err = none ∧
    (assertReset s bytes).out = ["bits 16", ""] ∧ (assertReset s bytes).len = bytes.length ∧
    (bytes ≠ [] → (assertReset s bytes).running) ∧ (bytes = [] → (assertReset s bytes).done)) ∧
  State.reset = State.resetWith []

/-- Exactly one of `running`, `done`, `failed` holds wherever the cursor is inside the buffer. This is the inference of
10_state.md R23 from R11 and R12, and the status conditions are the spec's decision D12 (log 23). -/
def Obligations.ExactlyOneStatusHolds : Prop :=
  ∀ s : State, s.offset ≤ s.len →
    (s.running ∧ ¬ s.done ∧ ¬ s.failed) ∨ (¬ s.running ∧ s.done ∧ ¬ s.failed) ∨ (¬ s.running ∧ ¬ s.done ∧ s.failed)

/-- Outside `running` there is no transition, of any instruction, and the stop names why (the stops are the model's form
of "no transition is enabled": log 4, 5; that an error stays until reset is the spec's decision D7). -/
def Obligations.NoTransitionUnlessRunning : Prop :=
  ∀ (i : Instr) (s : State),
    (s.failed → step s = .fault .passFailed ∧ exec i s = .fault .passFailed) ∧
    (s.done → step s = .fault .passDone ∧ exec i s = .fault .passDone)

/-! ## What each instruction does -/

/-- MOV_REG8_IMM8 and MOV_REG16_IMM16 complete, with the line and the cursor of 40_mov_immediate_to_register.md. -/
def Obligations.ImmediateFormsAppendTheirLine : Prop :=
  ∀ (reg : RegIndex) (imm8 : Byte) (imm16 : Half) (s : State), s.running →
    (s.offset + 2 ≤ s.len → exec (.movReg8Imm8 reg imm8) s = .next
      { s with
        out := s.out ++ ["mov " ++ registerTable reg .byte ++ ", " ++ decText imm8.toInt]
        offset := s.offset + 2 }) ∧
    (s.offset + 3 ≤ s.len → exec (.movReg16Imm16 reg imm16) s = .next
      { s with
        out := s.out ++ ["mov " ++ registerTable reg .word ++ ", " ++ decText imm16.toInt]
        offset := s.offset + 3 })

/-- The five rows with `d = 0` complete, with the line and the cursor of 41_mov_regmem_to_from_register.md section 2. -/
def Obligations.RegisterToRmFormsAppendTheirLine : Prop :=
  ∀ (w : Width) (reg rm : RegIndex) (disp8 : Byte) (v16 : Half) (s : State), s.running →
    (s.offset + 2 ≤ s.len → exec (.movRmRegMod11 w reg rm) s = .next
      { s with
        out := s.out ++ ["mov " ++ registerTable rm w ++ ", " ++ registerTable reg w]
        offset := s.offset + 2 }) ∧
    (rm ≠ 0b110#3 → s.offset + 2 ≤ s.len → exec (.movRmRegMod00 w reg rm) s = .next
      { s with
        out := s.out ++ ["mov [" ++ effectiveAddressTable rm ++ "], " ++ registerTable reg w]
        offset := s.offset + 2 }) ∧
    (s.offset + 4 ≤ s.len → exec (.movRmRegDirect w reg v16) s = .next
      { s with
        out := s.out ++ ["mov [" ++ decText v16.toInt ++ "], " ++ registerTable reg w]
        offset := s.offset + 4 }) ∧
    (s.offset + 3 ≤ s.len → exec (.movRmRegMod01 w reg rm disp8) s = .next
      { s with
        out := s.out ++ ["mov " ++ memText rm disp8.toInt ++ ", " ++ registerTable reg w]
        offset := s.offset + 3 }) ∧
    (s.offset + 4 ≤ s.len → exec (.movRmRegMod10 w reg rm v16) s = .next
      { s with
        out := s.out ++ ["mov " ++ memText rm v16.toInt ++ ", " ++ registerTable reg w]
        offset := s.offset + 4 })

/-- The five rows with `d = 1` complete, with the line and the cursor of 41_mov_regmem_to_from_register.md section 3. -/
def Obligations.RmToRegisterFormsAppendTheirLine : Prop :=
  ∀ (w : Width) (reg rm : RegIndex) (disp8 : Byte) (v16 : Half) (s : State), s.running →
    (s.offset + 2 ≤ s.len → exec (.movRegRmMod11 w reg rm) s = .next
      { s with
        out := s.out ++ ["mov " ++ registerTable reg w ++ ", " ++ registerTable rm w]
        offset := s.offset + 2 }) ∧
    (rm ≠ 0b110#3 → s.offset + 2 ≤ s.len → exec (.movRegRmMod00 w reg rm) s = .next
      { s with
        out := s.out ++ ["mov " ++ registerTable reg w ++ ", [" ++ effectiveAddressTable rm ++ "]"]
        offset := s.offset + 2 }) ∧
    (s.offset + 4 ≤ s.len → exec (.movRegRmDirect w reg v16) s = .next
      { s with
        out := s.out ++ ["mov " ++ registerTable reg w ++ ", [" ++ decText v16.toInt ++ "]"]
        offset := s.offset + 4 }) ∧
    (s.offset + 3 ≤ s.len → exec (.movRegRmMod01 w reg rm disp8) s = .next
      { s with
        out := s.out ++ ["mov " ++ registerTable reg w ++ ", " ++ memText rm disp8.toInt]
        offset := s.offset + 3 }) ∧
    (s.offset + 4 ≤ s.len → exec (.movRegRmMod10 w reg rm v16) s = .next
      { s with
        out := s.out ++ ["mov " ++ registerTable reg w ++ ", " ++ memText rm v16.toInt]
        offset := s.offset + 4 })

/-- UNSUPPORTED completes: its effect is to raise `UnsupportedOpcode` with the cursor and the byte, writing nothing else
(that nothing else is written is the spec's decision D5). -/
def Obligations.UnsupportedWritesTheErrorRecord : Prop :=
  ∀ (b : Byte) (s : State), s.running →
    exec (.unsupported b) s = .next { s with err := some (.unsupportedOpcode s.offset b) }

/-- A supported instruction that runs past the end of the buffer raises `TruncatedInstruction` instead, for at least two
bytes and at most its length (the numbers are the spec's decision D6, log 10). -/
def Obligations.MovPastTheEndIsTruncated : Prop :=
  ∀ (i : Instr) (s : State), Supported i → s.running → s.len < s.offset + (encode i).length →
    ∃ needed, 2 ≤ needed ∧ needed ≤ (encode i).length ∧ s.len < s.offset + needed ∧
      exec i s = .next { s with err := some (.truncatedInstruction s.offset needed (s.len - s.offset)) }

/-- Frame of the twelve MOV rows. No form stores to the buffer. Either one line and the cursor are new, or the error record
is and the line and the cursor are not (the second half is the spec's decision D5). -/
def Obligations.FrameOfMovForms : Prop :=
  ∀ (i : Instr) (s t : State), Supported i → exec i s = .next t →
    t.len = s.len ∧ (∀ a, t.buf.read a = s.buf.read a) ∧ t.buf = s.buf ∧
    ((t.err = s.err ∧ t.offset = s.offset + (encode i).length ∧ ∃ line, instrLine i = some line ∧ t.out = s.out ++ [line]) ∨
      (t.err ≠ none ∧ t.offset = s.offset ∧ t.out = s.out))

/-- Frame of the catch-all row: the cursor, the output and every byte of the buffer are unchanged (that the cursor and the
output are is the spec's decision D5, log 4). -/
def Obligations.FrameOfUnsupported : Prop :=
  ∀ (b : Byte) (s t : State), exec (.unsupported b) s = .next t →
    t.offset = s.offset ∧ t.out = s.out ∧ t.len = s.len ∧ (∀ a, t.buf.read a = s.buf.read a) ∧ t.buf = s.buf

/-! ## The step -/

/-- Where the bytes at the cursor decode to an instruction, the step is its meaning, with nothing added around it. -/
def Obligations.StepRunsDecodedInstruction : Prop :=
  ∀ (s : State) (i : Instr) (rest : List Byte), s.running → WellFormed i →
    s.window = encode i ++ rest → step s = exec i s

/-- `step` is the spec's pseudocode: no transition unless running, and when running exactly `Step()` of 10_state.md R20 with
the two decode functions of R67 and R70. What a raise leaves behind is the spec's decision D5 (log 4), the numbers of
`TruncatedInstruction` its D6 (log 10), and that an error enables no transition its D7 (log 4). -/
def Obligations.StepIsThePseudocode : Prop :=
  ∀ s : State,
    (s.running → step s = Pseudocode.stepEnabled s) ∧
    (¬ s.running → ∀ t, step s ≠ .next t)

/-- 30_encoding.md R53: the length by which a successful transition advances the cursor, by byte 0 and byte 1. -/
def Obligations.CursorAdvancesByTableLength : Prop :=
  ∀ (s t : State), step s = .next t → t.err = none →
    let b0 := (s.buf.read s.offset).toNat
    let b1 := (s.buf.read (s.offset + 1)).toNat
    (b0 / 16 = 0b1011 → t.offset = s.offset + (2 + b0 / 8 % 2)) ∧
    (b0 / 4 = 0b100010 →
      (b1 / 64 = 0b11 → t.offset = s.offset + 2) ∧
      (b1 / 64 = 0b00 → b1 % 8 ≠ 0b110 → t.offset = s.offset + 2) ∧
      (b1 / 64 = 0b00 → b1 % 8 = 0b110 → t.offset = s.offset + 4) ∧
      (b1 / 64 = 0b01 → t.offset = s.offset + 3) ∧
      (b1 / 64 = 0b10 → t.offset = s.offset + 4))

/-- 60_exceptions.md R101: a byte 0 outside `0x88..0x8B` and `0xB0..0xBF`, and no other, raises `UnsupportedOpcode` with the
cursor and that byte, wherever it stands, and no byte after it is read. -/
def Obligations.UnsupportedByteRaises : Prop :=
  ∀ s : State, s.running →
    let b0 := s.buf.read s.offset
    let supported := (0x88 ≤ b0.toNat ∧ b0.toNat ≤ 0x8B) ∨ (0xB0 ≤ b0.toNat ∧ b0.toNat ≤ 0xBF)
    (¬ supported → (∃ t, step s = .next t ∧ t.err = some (.unsupportedOpcode s.offset b0)) ∧ bufReads s = [s.offset]) ∧
    (supported → ∀ t offset byteValue, step s = .next t → t.err ≠ some (.unsupportedOpcode offset byteValue))

/-- The cases of `TruncatedInstruction` in 60_exceptions.md section 1; its numbers are the spec's decision D6 (log 10). -/
def Obligations.TruncationCases : Prop :=
  ∀ s : State, s.running →
    let b0 := (s.buf.read s.offset).toNat
    let b1 := (s.buf.read (s.offset + 1)).toNat
    let available := s.len - s.offset
    let raised (needed : Nat) : Prop :=
      step s = .next { s with err := some (.truncatedInstruction s.offset needed available) }
    (b0 / 8 = 0b10110 → available = 1 → raised 2) ∧
    (b0 / 8 = 0b10111 → available = 1 ∨ available = 2 → raised 3) ∧
    (b0 / 4 = 0b100010 → available = 1 → raised 2) ∧
    (b0 / 4 = 0b100010 → b1 / 64 = 0b01 → available = 2 → raised 3) ∧
    (b0 / 4 = 0b100010 → b1 / 64 = 0b10 ∨ (b1 / 64 = 0b00 ∧ b1 % 8 = 0b110) →
      available = 2 ∨ available = 3 → raised 4)

/-- What a raise does: a transition that ends with an error record has written nothing but that record (60_exceptions.md
R104; that `offset` and `out` keep their values is the spec's decision D5). -/
def Obligations.RaiseWritesOnlyTheErrorRecord : Prop :=
  ∀ (s t : State), step s = .next t → t.err ≠ none → t = { s with err := t.err } ∧ s.err = none

/-- The output is append-only: one line for a successful transition, none for a failing one (10_state.md R14; D5). -/
def Obligations.OutputIsAppendOnly : Prop :=
  ∀ (s t : State), step s = .next t →
    (t.err = none → ∃ line, t.out = s.out ++ [line]) ∧ (t.err ≠ none → t.out = s.out)

/-- The cursor never decreases, never passes `LEN`, and moves by 2 to 4 bytes exactly when the transition succeeds
(10_state.md R11; that it stays on an error is the spec's decision D5, log 4). -/
def Obligations.CursorBoundedAndMonotone : Prop :=
  ∀ (s t : State), step s = .next t →
    t.offset ≤ t.len ∧ s.offset ≤ t.offset ∧
    (t.err = none → s.offset + 2 ≤ t.offset ∧ t.offset ≤ s.offset + 4) ∧ (t.err ≠ none → t.offset = s.offset)

/-- The `ins` event of the interface tells the whole transition: with an event, the line and the cursor are the event's;
without one, the transition raises an error and writes that record alone (70_reset_and_hazards.md R128). The interface is
the spec's decision D12, and that `offset` and `out` keep their values after a raise is its decision D5 (log 4). -/
def Obligations.InsEventTellsTheTransition : Prop :=
  ∀ s : State, s.running →
    (∀ e, insEvent s = some e →
      step s = .next { s with out := s.out ++ [e.line], offset := s.offset + e.length }) ∧
    (insEvent s = none → ∃ error, step s = .next { s with err := some error })

/-- An instruction placed at the cursor by `withFetchWord`, in a buffer of canonical form, is the one the next step runs
(log 16; the canonical form is kept by every step, StepKeepsTheInvariant). -/
def Obligations.FetchWordIsRunNext : Prop :=
  ∀ (s : State) (nbits w : Nat) (i : Instr), s.buf.wf → decodeTableWord nbits w = some i →
    step (s.withFetchWord nbits w) = exec i (s.withFetchWord nbits w)

/-! ## Texts -/

/-- 42_operand_resolution_and_formatting.md R86: the RM side by `mod`, a register only under `mod = 11`, and a memory
operand's text the same for both widths. -/
def Obligations.RmSideByMod : Prop :=
  ∀ (rm : RegIndex) (w w' : Width) (disp : Int),
    rmSide .mod11 rm w disp = .reg rm w ∧
    rmSide .mod00 0b110#3 w disp = .memDirect disp ∧
    (rm ≠ 0b110#3 → rmSide .mod00 rm w disp = .memBase rm disp) ∧
    rmSide .mod01 rm w disp = .memBase rm disp ∧
    rmSide .mod10 rm w disp = .memBase rm disp ∧
    (∀ mod, mod ≠ .mod11 → (rmSide mod rm w disp).text = (rmSide mod rm w' disp).text)

/-- 42_operand_resolution_and_formatting.md R87, R91: a direct address is its signed value in brackets, 0 and negative values
included, and an immediate is its signed value; a register is its table entry. -/
def Obligations.OperandTexts : Prop :=
  (∀ v : Int, (Operand.memDirect v).text = "[" ++ decText v ++ "]") ∧
  (∀ v : Int, (Operand.imm v).text = decText v) ∧
  (∀ (index : RegIndex) (w : Width), (Operand.reg index w).text = registerTable index w) ∧
  (Operand.memDirect 4660).text = "[4660]" ∧ (Operand.memDirect 0).text = "[0]" ∧
  (Operand.memDirect (-1)).text = "[-1]" ∧ (Operand.memDirect (-32768)).text = "[-32768]"

/-- 42_operand_resolution_and_formatting.md R88: the three cases of a base expression with displacement, and the bare form
for a zero displacement of any width. -/
def Obligations.MemTextByDisplacement : Prop :=
  ∀ (rm : RegIndex) (disp : Int),
    (disp = 0 → (Operand.memBase rm disp).text = "[" ++ effectiveAddressTable rm ++ "]") ∧
    (disp > 0 → (Operand.memBase rm disp).text = "[" ++ effectiveAddressTable rm ++ " + " ++ decText disp ++ "]") ∧
    (disp < 0 → (Operand.memBase rm disp).text = "[" ++ effectiveAddressTable rm ++ " - " ++ decText |disp| ++ "]") ∧
    (Operand.memBase rm (-32768)).text = "[" ++ effectiveAddressTable rm ++ " - 32768]"

/-- 42_operand_resolution_and_formatting.md R92, R93: destination and source. -/
def Obligations.DestinationAndSourceByDirection : Prop :=
  ∀ (w : Width) (mod : Mod) (reg rm : RegIndex) (v : Int),
    (BitFields.regMem .toReg w mod reg rm v).dest = .reg reg w ∧
    (BitFields.regMem .toReg w mod reg rm v).src = rmSide mod rm w v ∧
    (BitFields.regMem .toRm w mod reg rm v).dest = rmSide mod rm w v ∧
    (BitFields.regMem .toRm w mod reg rm v).src = .reg reg w ∧
    (BitFields.immediate w reg v).dest = .reg reg w ∧
    (BitFields.immediate w reg v).src = .imm v

/-- `Dec(n)` is the decimal numeral of `n`: its digits read back as `|n|`, it has no leading zero, and a negative number is
`-` followed by the numeral of its absolute value (42_operand_resolution_and_formatting.md R90). -/
def Obligations.DecTextIsTheDecimalNumeral : Prop :=
  (∀ n : Nat, isUnsigned (decText n).toList = true ∧
    (decText n).toList.foldl (fun acc c => 10 * acc + (c.toNat - '0'.toNat)) 0 = n) ∧
  (∀ n : Int, n < 0 → decText n = "-" ++ decText |n|)

/-- 42_operand_resolution_and_formatting.md R97: the source's testable properties of the texts. The name `bh` is the
table's (log 7). -/
def Obligations.SourceTestableTexts : Prop :=
  registerTable 0b000#3 .word = "ax" ∧ registerTable 0b111#3 .byte = "bh" ∧
  (Operand.imm (0xFF#8).toInt).text = "-1" ∧ (Operand.imm (littleEndian 0x00#8 0x80#8).toInt).text = "-32768" ∧
  (∀ (rm : RegIndex) (w : Width),
    (rmSide .mod01 rm w (0x00#8).toInt).text = "[" ++ effectiveAddressTable rm ++ "]" ∧
    (rmSide .mod01 rm w (0x05#8).toInt).text = "[" ++ effectiveAddressTable rm ++ " + 5]" ∧
    (rmSide .mod01 rm w (0xFB#8).toInt).text = "[" ++ effectiveAddressTable rm ++ " - 5]") ∧
  (∀ (v : Half) (w : Width), (rmSide .mod00 0b110#3 w v.toInt).text = "[" ++ decText v.toInt ++ "]")

/-- Swapping `d` in byte 0 swaps the two operand texts and keeps the length, for every byte 1 and every displacement
(41_mov_regmem_to_from_register.md section 4). -/
def Obligations.SwappingDirectionSwapsOperands : Prop :=
  ∀ (w : Width) (b1 b2 b3 : Byte), ∃ i j f g,
    decode [BitVec.ofNat 8 (0x88 + w.bit.toNat), b1, b2, b3] = .instr i ∧ bitFields i = some f ∧
    decode [BitVec.ofNat 8 (0x8A + w.bit.toNat), b1, b2, b3] = .instr j ∧ bitFields j = some g ∧
    f.dest.text = g.src.text ∧ f.src.text = g.dest.text ∧ f.length = g.length ∧
    g.dest = .reg (BitVec.ofNat 3 (b1.toNat / 8 % 8)) w

/-- Different encodings of one line: the two directions between registers, and a zero displacement in its three lengths
(30_encoding.md section 8). -/
def Obligations.OneLineFromSeveralEncodings : Prop :=
  ∀ (w : Width) (a b : RegIndex),
    instrLine (.movRmRegMod11 w a b) = instrLine (.movRegRmMod11 w b a) ∧
    (b ≠ 0b110#3 →
      instrLine (.movRegRmMod00 w a b) = instrLine (.movRegRmMod01 w a b 0x00#8) ∧
      instrLine (.movRmRegMod00 w a b) = instrLine (.movRmRegMod01 w a b 0x00#8)) ∧
    (∀ disp : Byte,
      instrLine (.movRegRmMod01 w a b disp) = instrLine (.movRegRmMod10 w a b (disp.signExtend 16)) ∧
      instrLine (.movRmRegMod01 w a b disp) = instrLine (.movRmRegMod10 w a b (disp.signExtend 16)))

/-- Every appended line is in the output grammar, with one of its four operand shapes (42_operand_resolution_and_formatting.md
section 5; the names are the tables', log 7, 8). -/
def Obligations.EveryLineIsInTheGrammar : Prop :=
  ∀ (s t : State), step s = .next t → t.err = none → ∃ line, t.out = s.out ++ [line] ∧ isLine line

/-- No line is longer than 25 characters, and one has 25 (42_operand_resolution_and_formatting.md section 6; the lengths of
the names are the tables', log 7, 8). -/
def Obligations.LongestLineHas25Characters : Prop :=
  (∀ (i : Instr) (line : String), instrLine i = some line → line.length ≤ 25) ∧
  instrLine (.movRmRegMod10 .word 0b000#3 0b010#3 0x8000#16) = some "mov [bp + si - 32768], ax" ∧
  "mov [bp + si - 32768], ax".length = 25

/-- The serialised output: the header is `bits 16`, an empty line, and every further line is followed by one line feed, the last
included (42_operand_resolution_and_formatting.md section 5; the line feed is the spec's decision D9, log 11). -/
def Obligations.SerialisedLinesEndInLineFeed : Prop :=
  (∀ bytes, serialise (State.resetWith bytes).out = "bits 16\n\n") ∧
  (∀ (lines : List String) (line : String), serialise (lines ++ [line]) = serialise lines ++ line ++ "\n")

/-! ## Invariants and whole passes -/

/-- The invariant holds after every reset, whatever bytes the caller supplies. That `out` is the header from reset on is the
spec's decision D8 (log 13), that `State.reset` is the reset with the empty buffer and that the buffer is a canonical list
are the model's choices (log 3, 1). -/
def Obligations.ResetSatisfiesTheInvariant : Prop :=
  State.reset.Inv ∧ ∀ bytes : List Byte, (State.resetWith bytes).Inv

/-- Every step keeps the invariant: the cursor inside the buffer and at an instruction boundary, the output exactly the
header and the lines of the instructions before the cursor, the error record truthful, the buffer canonical. The numbers of
`TruncatedInstruction` are the spec's decision D6 (log 10), the cursor and the lines kept after an error its decision D5
(log 4), the header before any line its decision D8 (log 13), and the buffer's canonical form is the model's own (log 1). -/
def Obligations.StepKeepsTheInvariant : Prop :=
  ∀ (s t : State), s.Inv → step s = .next t → t.Inv

/-- Every pass ends, in one of the two terminal kinds of state, within `floor(LEN / 2) + 1` transitions, and has emitted at
most `floor(LEN / 2)` instruction lines beside the header, whose two lines are there from reset on by the spec's decision
D8 (log 13); more transitions change nothing. That an error ends the pass is its decision D7 (log 4), and the pass is one
without a reset in between (log 20). -/
def Obligations.EveryPassEnds : Prop :=
  ∀ bytes : List Byte, (decodePass bytes).Terminal ∧ (decodePass bytes).out.length ≤ 2 + bytes.length / 2 ∧
    ∀ fuel, bytes.length / 2 + 1 ≤ fuel → runPass fuel (.resetWith bytes) = decodePass bytes

/-- A program of supported instructions is decoded completely: the pass ends `done` at the end of the buffer with one line
per instruction, in order, after the header (for an empty program the header alone: the spec's decision D8, log 13). -/
def Obligations.PassDecodesAnEncodedProgram : Prop :=
  ∀ program : List Instr, (∀ i ∈ program, Supported i) →
    decodeBuffer (program.flatMap encode) =
      (header ++ program.filterMap instrLine, (program.flatMap encode).length, none)

/-- A program followed by bytes that do not decode to a supported instruction fails at those bytes, with the lines of the
program and the error that names them; bytes after an unsupported opcode make no difference. The numbers of
`TruncatedInstruction` are the spec's decision D6 (log 10), the state left behind its D5 (log 4), and the header before a
failing first instruction its D8 (log 13). -/
def Obligations.PassFailsAtTheFirstBadByte : Prop :=
  ∀ (program : List Instr) (tail : List Byte), (∀ i ∈ program, Supported i) →
    let start := (program.flatMap encode).length
    (∀ b, decode tail = .instr (.unsupported b) →
      decodeBuffer (program.flatMap encode ++ tail) =
        (header ++ program.filterMap instrLine, start, some (.unsupportedOpcode start b))) ∧
    (∀ seen needed, decode tail = .truncated seen needed →
      decodeBuffer (program.flatMap encode ++ tail) =
        (header ++ program.filterMap instrLine, start, some (.truncatedInstruction start needed tail.length)))

/-- A pass that ends `done` has consumed the whole buffer as supported instructions and printed each of them once,
after the header (for an empty buffer the header alone: the spec's decision D8, log 13). -/
def Obligations.CompletePassIsADisassembly : Prop :=
  ∀ bytes : List Byte, (decodePass bytes).done →
    ∃ program : List Instr, (∀ i ∈ program, Supported i) ∧ bytes = program.flatMap encode ∧
      (decodePass bytes).out = header ++ program.filterMap instrLine

/-- A one-byte buffer that classifies as an immediate form fails as truncated, with the header alone as output
(60_exceptions.md section 1). The header and the cursor left behind are the spec's decisions D8 and D5 (log 13, 4), and the
label 2 of the kind its decision D4 (log 19). -/
def Obligations.OneByteImmediateBufferIsTruncated : Prop :=
  ∀ b : Byte, classify b = .immediateToRegister →
    (decodePass [b]).out = ["bits 16", ""] ∧ (decodePass [b]).offset = 0 ∧
    errorCode (decodePass [b]).err = 2 ∧ bufReads (.resetWith [b]) = [0]
end

