-- ==== Sys2Proof/Laws/Decode.lean ====
section
/-! SUPPORT. The laws of the encoding: each field of an encoded byte is the field that was put in, each byte is the
encoding of its fields, fields as numbers, and what a truncated answer says. -/

namespace Sys2Proof

/-! ## Fields of encoded bytes -/

@[simp] theorem classify_immByte0 (w : Width) (reg : RegIndex) : classify (immByte0 w reg) = .immediateToRegister := by
  cases w <;> revert reg <;> decide

@[simp] theorem immWidth_immByte0 (w : Width) (reg : RegIndex) : immWidth (immByte0 w reg) = w := by
  cases w <;> revert reg <;> decide

@[simp] theorem immReg_immByte0 (w : Width) (reg : RegIndex) : immReg (immByte0 w reg) = reg := by
  cases w <;> revert reg <;> decide

@[simp] theorem classify_rmByte0 (d : Direction) (w : Width) : classify (rmByte0 d w) = .regMemToFromRegister := by
  cases d <;> cases w <;> decide

@[simp] theorem rmDirection_rmByte0 (d : Direction) (w : Width) : rmDirection (rmByte0 d w) = d := by
  cases d <;> cases w <;> decide

@[simp] theorem rmWidth_rmByte0 (d : Direction) (w : Width) : rmWidth (rmByte0 d w) = w := by
  cases d <;> cases w <;> decide

@[simp] theorem modField_rmByte1 (mod : Mod) (reg rm : RegIndex) : modField (rmByte1 mod reg rm) = mod := by
  cases mod <;> revert reg rm <;> decide

@[simp] theorem regField_rmByte1 (mod : Mod) (reg rm : RegIndex) : regField (rmByte1 mod reg rm) = reg := by
  cases mod <;> revert reg rm <;> decide

@[simp] theorem rmField_rmByte1 (mod : Mod) (reg rm : RegIndex) : rmField (rmByte1 mod reg rm) = rm := by
  cases mod <;> revert reg rm <;> decide

theorem littleEndian_toNat (lo hi : Byte) : (littleEndian lo hi).toNat = lo.toNat + 256 * hi.toNat := by
  unfold littleEndian
  rw [BitVec.toNat_append, ← Nat.shiftLeft_add_eq_or_of_lt lo.isLt, Nat.shiftLeft_eq]
  omega

theorem lowByte_toNat (h : Half) : (lowByte h).toNat = h.toNat % 256 := by
  simp [lowByte, BitVec.extractLsb'_toNat]

theorem highByte_toNat (h : Half) : (highByte h).toNat = h.toNat / 256 := by
  have := h.isLt
  simp only [highByte, BitVec.extractLsb'_toNat, Nat.shiftRight_eq_div_pow]
  omega

@[simp] theorem littleEndian_lowByte_highByte (h : Half) : littleEndian (lowByte h) (highByte h) = h := by
  apply BitVec.eq_of_toNat_eq
  rw [littleEndian_toNat, lowByte_toNat, highByte_toNat]
  omega

@[simp] theorem lowByte_littleEndian (lo hi : Byte) : lowByte (littleEndian lo hi) = lo := by
  have := lo.isLt
  apply BitVec.eq_of_toNat_eq
  rw [lowByte_toNat, littleEndian_toNat]
  omega

@[simp] theorem highByte_littleEndian (lo hi : Byte) : highByte (littleEndian lo hi) = hi := by
  have := lo.isLt
  apply BitVec.eq_of_toNat_eq
  rw [highByte_toNat, littleEndian_toNat]
  omega

/-! ## Bytes are the encodings of their fields -/

theorem immByte0_of_fields (b0 : Byte) (h : classify b0 = .immediateToRegister) :
    immByte0 (immWidth b0) (immReg b0) = b0 := by
  revert b0; decide

theorem rmByte0_of_fields (b0 : Byte) (h : classify b0 = .regMemToFromRegister) :
    rmByte0 (rmDirection b0) (rmWidth b0) = b0 := by
  revert b0; decide

theorem rmByte1_of_fields (b1 : Byte) : rmByte1 (modField b1) (regField b1) (rmField b1) = b1 := by
  revert b1; decide

/-- The catch-all row's constraint is the classifier's verdict. -/
theorem wellFormed_unsupported_iff (b : Byte) : WellFormed (.unsupported b) ↔ classify b = .unsupported := by
  revert b; decide

/-! ## Fields as numbers -/

theorem immWidth_bit_toNat (b0 : Byte) : (immWidth b0).bit.toNat = b0.toNat / 8 % 2 := by
  revert b0; decide

theorem immReg_toNat (b0 : Byte) : (immReg b0).toNat = b0.toNat % 8 := by
  revert b0; decide

theorem rmDirection_bit_toNat (b0 : Byte) : (rmDirection b0).bit.toNat = b0.toNat / 2 % 2 := by
  revert b0; decide

theorem rmWidth_bit_toNat (b0 : Byte) : (rmWidth b0).bit.toNat = b0.toNat % 2 := by
  revert b0; decide

theorem modField_bits_toNat (b1 : Byte) : (modField b1).bits.toNat = b1.toNat / 64 := by
  revert b1; decide

theorem regField_toNat (b1 : Byte) : (regField b1).toNat = b1.toNat / 8 % 8 := by
  revert b1; decide

theorem rmField_toNat (b1 : Byte) : (rmField b1).toNat = b1.toNat % 8 := by
  revert b1; decide

/-! ## What the parts of the decoder answer -/

theorem decode_unsupported (b0 : Byte) (rest : List Byte) (h : classify b0 = .unsupported) :
    decode (b0 :: rest) = .instr (.unsupported b0) := by
  simp [decode, h]

theorem decode_immediate (b0 : Byte) (rest : List Byte) (h : classify b0 = .immediateToRegister) :
    decode (b0 :: rest) = decodeImmediate b0 rest := by
  simp [decode, h]

theorem decode_regMem (b0 : Byte) (rest : List Byte) (h : classify b0 = .regMemToFromRegister) :
    decode (b0 :: rest) = decodeRegMem b0 rest := by
  simp [decode, h]

theorem decodeImmediate_truncated (b0 : Byte) (rest : List Byte) (seen needed : Nat)
    (h : decodeImmediate b0 rest = .truncated seen needed) :
    seen = 1 ∧ needed = 2 + (immWidth b0).bit.toNat ∧ rest.length + 1 < needed := by
  cases hw : immWidth b0 <;> rcases rest with _ | ⟨lo, _ | ⟨hi, rest⟩⟩ <;>
    simp_all [decodeImmediate, Width.bit] <;> omega

theorem decodeMod00_truncated (d : Direction) (w : Width) (reg rm : RegIndex) (rest : List Byte) (seen needed : Nat)
    (h : decodeMod00 d w reg rm rest = .truncated seen needed) :
    rm = 0b110#3 ∧ seen = 2 ∧ needed = 4 ∧ rest.length < 2 := by
  unfold decodeMod00 at h
  split at h <;> cases d <;> rcases rest with _ | ⟨lo, _ | ⟨hi, rest⟩⟩ <;> simp_all <;> omega

theorem decodeMod01_truncated (d : Direction) (w : Width) (reg rm : RegIndex) (rest : List Byte) (seen needed : Nat)
    (h : decodeMod01 d w reg rm rest = .truncated seen needed) : seen = 2 ∧ needed = 3 ∧ rest.length < 1 := by
  cases d <;> rcases rest with _ | ⟨disp, rest⟩ <;> simp_all [decodeMod01]

theorem decodeMod10_truncated (d : Direction) (w : Width) (reg rm : RegIndex) (rest : List Byte) (seen needed : Nat)
    (h : decodeMod10 d w reg rm rest = .truncated seen needed) : seen = 2 ∧ needed = 4 ∧ rest.length < 2 := by
  cases d <;> rcases rest with _ | ⟨lo, _ | ⟨hi, rest⟩⟩ <;> simp_all [decodeMod10] <;> omega

theorem decodeMod11_not_truncated (d : Direction) (w : Width) (reg rm : RegIndex) (seen needed : Nat) :
    decodeMod11 d w reg rm ≠ .truncated seen needed := by
  cases d <;> simp [decodeMod11]

/-- The register/memory form is truncated at byte 1, or after it for want of displacement bytes. -/
theorem decodeRegMem_truncated (b0 : Byte) (rest : List Byte) (seen needed : Nat)
    (h : decodeRegMem b0 rest = .truncated seen needed) :
    (rest = [] ∧ seen = 1 ∧ needed = 2) ∨
      ∃ b1 tail, rest = b1 :: tail ∧ seen = 2 ∧ tail.length + 2 < needed ∧ needed ≤ 4 := by
  rcases rest with _ | ⟨b1, tail⟩
  · simp [decodeRegMem] at h
    exact .inl ⟨rfl, h.1.symm, h.2.symm⟩
  · refine .inr ⟨b1, tail, rfl, ?_⟩
    unfold decodeRegMem at h
    cases hm : modField b1 <;> simp only [hm] at h
    · have := decodeMod00_truncated _ _ _ _ _ _ _ h; omega
    · have := decodeMod01_truncated _ _ _ _ _ _ _ h; omega
    · have := decodeMod10_truncated _ _ _ _ _ _ _ h; omega
    · exact absurd h (decodeMod11_not_truncated _ _ _ _ _ _)

/-- A truncated answer names a shortfall: fewer bytes than needed were present, and those read were present. -/
theorem decode_truncated_bounds (bytes : List Byte) (seen needed : Nat) (h : decode bytes = .truncated seen needed) :
    1 ≤ seen ∧ seen ≤ bytes.length ∧ bytes.length < needed ∧ needed ≤ 4 := by
  rcases bytes with _ | ⟨b0, rest⟩
  · simp [decode] at h
  · cases hc : classify b0
    · rw [decode_immediate b0 rest hc] at h
      have := decodeImmediate_truncated _ _ _ _ h
      have := (immWidth b0).bit.isLt
      simp; omega
    · rw [decode_regMem b0 rest hc] at h
      rcases decodeRegMem_truncated _ _ _ _ h with ⟨rfl, rfl, rfl⟩ | ⟨b1, tail, rfl, rfl, h1, h2⟩
      · simp
      · simp; omega
    · rw [decode_unsupported b0 rest hc] at h; simp at h

theorem decodeImmediate_ne_noByte (b0 : Byte) (rest : List Byte) : decodeImmediate b0 rest ≠ .noByte := by
  unfold decodeImmediate; split <;> simp

theorem decodeRegMem_ne_noByte (b0 : Byte) (rest : List Byte) : decodeRegMem b0 rest ≠ .noByte := by
  unfold decodeRegMem decodeMod00 decodeMod01 decodeMod10 decodeMod11
  (repeat' split) <;> simp

/-- There is no byte exactly when there is none. -/
theorem decode_noByte_iff (bytes : List Byte) : decode bytes = .noByte ↔ bytes = [] := by
  rcases bytes with _ | ⟨b0, rest⟩
  · simp [decode]
  · cases hc : classify b0 <;>
      simp [decode, hc, decodeImmediate_ne_noByte, decodeRegMem_ne_noByte]

/-- Four bytes are never too few. -/
theorem decode_total (bytes : List Byte) (h : 4 ≤ bytes.length) : ∃ i, decode bytes = .instr i := by
  cases hd : decode bytes with
  | instr i => exact ⟨i, rfl⟩
  | truncated seen needed => have := decode_truncated_bounds _ _ _ hd; omega
  | noByte => rw [decode_noByte_iff] at hd; simp [hd] at h

end Sys2Proof
end

