-- ==== Sys2Proof/Laws/State.lean ====
section
/-! SUPPORT. One lemma per field per update of the state, so that no later proof unfolds a record update. -/

namespace Sys2Proof.Machine

@[simp] theorem setOffset_offset (s : State) (v : Nat) : (s.setOffset v).offset = v := rfl
@[simp] theorem setOffset_err (s : State) (v : Nat) : (s.setOffset v).err = s.err := rfl
@[simp] theorem setOffset_out (s : State) (v : Nat) : (s.setOffset v).out = s.out := rfl
@[simp] theorem setOffset_buf (s : State) (v : Nat) : (s.setOffset v).buf = s.buf := rfl
@[simp] theorem setOffset_len (s : State) (v : Nat) : (s.setOffset v).len = s.len := rfl

@[simp] theorem setErr_offset (s : State) (e : DecodeError) : (s.setErr e).offset = s.offset := rfl
@[simp] theorem setErr_err (s : State) (e : DecodeError) : (s.setErr e).err = some e := rfl
@[simp] theorem setErr_out (s : State) (e : DecodeError) : (s.setErr e).out = s.out := rfl
@[simp] theorem setErr_buf (s : State) (e : DecodeError) : (s.setErr e).buf = s.buf := rfl
@[simp] theorem setErr_len (s : State) (e : DecodeError) : (s.setErr e).len = s.len := rfl

@[simp] theorem appendLine_offset (s : State) (line : String) : (s.appendLine line).offset = s.offset := rfl
@[simp] theorem appendLine_err (s : State) (line : String) : (s.appendLine line).err = s.err := rfl
@[simp] theorem appendLine_out (s : State) (line : String) : (s.appendLine line).out = s.out ++ [line] := rfl
@[simp] theorem appendLine_buf (s : State) (line : String) : (s.appendLine line).buf = s.buf := rfl
@[simp] theorem appendLine_len (s : State) (line : String) : (s.appendLine line).len = s.len := rfl

@[simp] theorem resetWith_offset (bytes : List Byte) : (State.resetWith bytes).offset = 0 := rfl
@[simp] theorem resetWith_err (bytes : List Byte) : (State.resetWith bytes).err = none := rfl
@[simp] theorem resetWith_out (bytes : List Byte) : (State.resetWith bytes).out = header := rfl
@[simp] theorem resetWith_len (bytes : List Byte) : (State.resetWith bytes).len = bytes.length := rfl
@[simp] theorem resetWith_buf (bytes : List Byte) :
    (State.resetWith bytes).buf = Memory.writeBytes [] 0 bytes := rfl

end Sys2Proof.Machine
end

