-- ==== Sys2Proof/Laws/Memory.lean ====
section
/-! SUPPORT. The laws of the buffer: a read after a write, the canonical form kept by every operation and determining the
memory, and what a fetch reads. -/

namespace Sys2Proof.Machine.Memory

@[simp] theorem read_nil (a : Nat) : Memory.read [] a = Config.unlistedByte := rfl

theorem read_cons (c : Host.Cell) (m : Memory) (a : Nat) :
    Memory.read (c :: m) a = if a = c.1 then c.2 else Memory.read m a := rfl

/-- An address below every listed one reads as an unlisted address. -/
theorem read_of_lt (m : Memory) (a : Nat) (h : ∀ c ∈ m, a < c.1) : Memory.read m a = Config.unlistedByte := by
  induction m with
  | nil => rfl
  | cons c rest ih =>
    have hc := h c (by simp)
    rw [read_cons, if_neg (by omega), ih fun d hd => h d (by simp [hd])]

theorem read_consCell (m : Memory) (a k : Nat) (b : Byte) (h : ∀ c ∈ m, a < c.1) :
    Memory.read (Memory.cons a b m) k = if k = a then b else Memory.read m k := by
  unfold Memory.cons
  split
  · next hb =>
    split
    · next hk => subst hk; rw [read_of_lt m k h, hb]
    · rfl
  · rw [read_cons]

/-- What an address reads as after one byte is placed. -/
theorem read_write (m : Memory) (h : m.wf) (a k : Nat) (b : Byte) :
    Memory.read (Memory.write m a b) k = if k = a then b else Memory.read m k := by
  induction m with
  | nil => exact read_consCell [] a k b (by simp)
  | cons c rest ih =>
    have hrest : Memory.wf rest := ⟨h.1.of_cons, fun d hd => h.2 d (by simp [hd])⟩
    have hlt := (List.pairwise_cons.mp h.1).1
    unfold Memory.write
    split
    · refine read_consCell _ a k b ?_
      intro d hd
      rcases List.mem_cons.mp hd with rfl | hd
      · assumption
      · have := hlt d hd; omega
    · split
      · next hac =>
        rw [read_consCell rest a k b (by intro d hd; have := hlt d hd; omega), read_cons]
        split <;> simp_all
      · next hac =>
        rw [read_cons, ih hrest, read_cons]
        split
        · next hk => rw [if_neg (by omega)]
        · rfl

theorem read_write_same (m : Memory) (h : m.wf) (a : Nat) (b : Byte) : Memory.read (Memory.write m a b) a = b := by
  simp [read_write m h]

theorem read_write_other (m : Memory) (h : m.wf) (a k : Nat) (b : Byte) (hk : k ≠ a) :
    Memory.read (Memory.write m a b) k = Memory.read m k := by
  simp [read_write m h, hk]

theorem mem_consCell (m : Memory) (a : Nat) (b : Byte) (c : Host.Cell) (hc : c ∈ Memory.cons a b m) :
    c = (a, b) ∧ b ≠ Config.unlistedByte ∨ c ∈ m := by
  unfold Memory.cons at hc
  split at hc
  · exact .inr hc
  · rcases List.mem_cons.mp hc with h | h
    · exact .inl ⟨h, ‹_›⟩
    · exact .inr h

theorem consCell_wf (m : Memory) (h : m.wf) (a : Nat) (b : Byte) (hlt : ∀ c ∈ m, a < c.1) :
    (Memory.cons a b m).wf := by
  unfold Memory.cons
  split
  · exact h
  · next hb =>
    refine ⟨List.pairwise_cons.mpr ⟨hlt, h.1⟩, ?_⟩
    intro c hc
    rcases List.mem_cons.mp hc with rfl | hc
    · exact hb
    · exact h.2 c hc

/-- Every cell after a write is the written one or was there before. -/
theorem mem_write (m : Memory) (a : Nat) (b : Byte) (c : Host.Cell) (hc : c ∈ Memory.write m a b) :
    c.1 = a ∨ c ∈ m := by
  induction m with
  | nil => rcases mem_consCell _ _ _ _ hc with h | h <;> simp_all
  | cons d rest ih =>
    unfold Memory.write at hc
    split at hc
    · rcases mem_consCell _ _ _ _ hc with h | h
      · exact .inl (by rw [h.1])
      · exact .inr h
    · split at hc
      · rcases mem_consCell _ _ _ _ hc with h | h
        · exact .inl (by rw [h.1])
        · exact .inr (by simp [h])
      · rcases List.mem_cons.mp hc with rfl | hc
        · exact .inr (by simp)
        · rcases ih hc with h | h
          · exact .inl h
          · exact .inr (by simp [h])

/-- A write keeps the canonical form. -/
theorem write_wf (m : Memory) (h : m.wf) (a : Nat) (b : Byte) : (Memory.write m a b).wf := by
  induction m with
  | nil => exact consCell_wf [] h a b (by simp)
  | cons c rest ih =>
    have hrest : Memory.wf rest := ⟨h.1.of_cons, fun d hd => h.2 d (by simp [hd])⟩
    have hlt := (List.pairwise_cons.mp h.1).1
    unfold Memory.write
    split
    · refine consCell_wf _ h a b ?_
      intro d hd
      rcases List.mem_cons.mp hd with rfl | hd
      · assumption
      · have := hlt d hd; omega
    · split
      · exact consCell_wf rest hrest a b (by intro d hd; have := hlt d hd; omega)
      · have hw := ih hrest
        refine ⟨List.pairwise_cons.mpr ⟨?_, hw.1⟩, ?_⟩
        · intro d hd
          rcases mem_write rest a b d hd with h' | h'
          · omega
          · exact hlt d h'
        · intro d hd
          rcases List.mem_cons.mp hd with rfl | hd
          · exact h.2 d (by simp)
          · exact hw.2 d hd

/-- Placing bytes keeps the canonical form. -/
theorem writeBytes_wf (bytes : List Byte) (m : Memory) (h : m.wf) (a : Nat) : (Memory.writeBytes m a bytes).wf := by
  induction bytes generalizing m a with
  | nil => exact h
  | cons b rest ih => exact ih _ (write_wf m h a b) (a + 1)

/-- What an address reads as after bytes are placed. -/
theorem read_writeBytes (bytes : List Byte) (m : Memory) (h : m.wf) (a k : Nat) :
    Memory.read (Memory.writeBytes m a bytes) k =
      if hk : a ≤ k ∧ k - a < bytes.length then bytes[k - a] else Memory.read m k := by
  induction bytes generalizing m a with
  | nil => simp [Memory.writeBytes]
  | cons b rest ih =>
    rw [Memory.writeBytes, ih _ (write_wf m h a b), read_write m h]
    by_cases hka : k = a
    · subst hka; simp
    · by_cases hlt : a + 1 ≤ k ∧ k - (a + 1) < rest.length
      · have h2 : a ≤ k ∧ k - a < (b :: rest).length := by simp; omega
        rw [dif_pos hlt, dif_pos h2]
        simp [show k - a = (k - (a + 1)) + 1 by omega]
      · have h2 : ¬ (a ≤ k ∧ k - a < (b :: rest).length) := by simp; omega
        rw [dif_neg hlt, dif_neg h2, if_neg hka]

/-- Bytes placed at `a` list nothing but old cells and addresses among theirs. -/
theorem mem_writeBytes (bytes : List Byte) (m : Memory) (a : Nat) (c : Host.Cell)
    (hc : c ∈ Memory.writeBytes m a bytes) : c ∈ m ∨ (a ≤ c.1 ∧ c.1 < a + bytes.length) := by
  induction bytes generalizing m a with
  | nil => exact .inl hc
  | cons b rest ih =>
    rcases ih _ _ hc with h | h
    · rcases mem_write m a b c h with h | h
      · right; simp; omega
      · exact .inl h
    · right; simp; omega

/-- Canonical memories that read alike are equal data. -/
theorem ext_of_read (m n : Memory) (hm : m.wf) (hn : n.wf) (h : ∀ a, Memory.read m a = Memory.read n a) : m = n := by
  induction m generalizing n with
  | nil =>
    cases n with
    | nil => rfl
    | cons d n' => exact absurd (by simpa [read_cons] using (h d.1).symm) (hn.2 d (by simp))
  | cons c m' ih =>
    have hm' : Memory.wf m' := ⟨hm.1.of_cons, fun d hd => hm.2 d (by simp [hd])⟩
    have hcm := (List.pairwise_cons.mp hm.1).1
    cases n with
    | nil => exact absurd (by simpa [read_cons] using h c.1) (hm.2 c (by simp))
    | cons d n' =>
      have hn' : Memory.wf n' := ⟨hn.1.of_cons, fun e he => hn.2 e (by simp [he])⟩
      have hdn := (List.pairwise_cons.mp hn.1).1
      have hcd : c.1 = d.1 := by
        rcases Nat.lt_trichotomy c.1 d.1 with hlt | heq | hgt
        · have := h c.1
          rw [read_cons, if_pos rfl, read_of_lt (d :: n') c.1] at this
          · exact absurd this (hm.2 c (by simp))
          · intro e he
            rcases List.mem_cons.mp he with rfl | he
            · exact hlt
            · have := hdn e he; omega
        · exact heq
        · have := h d.1
          rw [read_of_lt (c :: m') d.1, read_cons, if_pos rfl] at this
          · exact absurd this.symm (hn.2 d (by simp))
          · intro e he
            rcases List.mem_cons.mp he with rfl | he
            · exact hgt
            · have := hcm e he; omega
      have hval : c.2 = d.2 := by
        have := h c.1
        rwa [read_cons, if_pos rfl, read_cons, if_pos hcd] at this
      have htail : m' = n' := by
        refine ih n' hm' hn' fun a => ?_
        have := h a
        rw [read_cons, read_cons, ← hcd] at this
        by_cases hac : a = c.1
        · subst hac
          rw [read_of_lt m' c.1 hcm, read_of_lt n' c.1 (by rw [hcd]; exact hdn)]
        · simpa [hac] using this
      rw [Prod.ext hcd hval, htail]

/-! ## Slices -/

@[simp] theorem slice_zero (m : Memory) (a : Nat) : m.slice a 0 = [] := rfl

theorem slice_succ (m : Memory) (a n : Nat) : m.slice a (n + 1) = m.read a :: m.slice (a + 1) n := rfl

@[simp] theorem length_slice (m : Memory) (a n : Nat) : (m.slice a n).length = n := by
  induction n generalizing a with
  | zero => rfl
  | succ n ih => simp [slice_succ, ih]

theorem slice_append (m : Memory) (a j k : Nat) : m.slice a (j + k) = m.slice a j ++ m.slice (a + j) k := by
  induction j generalizing a with
  | zero => simp
  | succ j ih =>
    rw [show j + 1 + k = (j + k) + 1 by omega, slice_succ, slice_succ, ih]
    simp [show a + 1 + j = a + (j + 1) by omega]

theorem getElem_slice (m : Memory) (a n k : Nat) (h : k < (m.slice a n).length) :
    (m.slice a n)[k] = m.read (a + k) := by
  induction n generalizing a k with
  | zero => simp at h
  | succ n ih =>
    cases k with
    | zero => simp [slice_succ]
    | succ k =>
      simp only [slice_succ, List.getElem_cons_succ]
      rw [ih (a + 1) k (by simp at h ⊢; omega)]
      congr 1; omega

/-- Bytes placed in an empty memory read back as placed. -/
theorem slice_writeBytes (bytes : List Byte) (m : Memory) (h : m.wf) (a : Nat) :
    (Memory.writeBytes m a bytes).slice a bytes.length = bytes := by
  refine List.ext_getElem (by simp) fun k h1 h2 => ?_
  rw [getElem_slice, read_writeBytes bytes m h]
  simp [h2]

end Sys2Proof.Machine.Memory

namespace Sys2Proof.Machine

/-- A fetch reads exactly the bytes that exist, at most as many as asked for. -/
theorem fetchBytes_eq_slice (s : State) (a n : Nat) : s.fetchBytes a n = s.buf.slice a (min n (s.len - a)) := by
  induction n generalizing a with
  | zero => simp [State.fetchBytes]
  | succ n ih =>
    unfold State.fetchBytes State.memRead1
    by_cases h : a + 1 ≤ s.len
    · rw [if_pos h, show min (n + 1) (s.len - a) = min n (s.len - (a + 1)) + 1 by omega, Memory.slice_succ, ih]
    · rw [if_neg h, show min (n + 1) (s.len - a) = 0 by omega]; rfl

/-- The window is the bytes from the cursor on, four or as many as remain. -/
theorem window_eq_slice (s : State) : s.window = s.buf.slice s.offset (min 4 (s.len - s.offset)) :=
  fetchBytes_eq_slice s s.offset 4

@[simp] theorem length_window (s : State) : s.window.length = min 4 (s.len - s.offset) := by
  simp [window_eq_slice]

/-- When running, the window begins with the byte at the cursor. -/
theorem window_of_running (s : State) (h : s.running) :
    s.window = s.buf.read s.offset :: s.buf.slice (s.offset + 1) (min 3 (s.len - (s.offset + 1))) := by
  have := h.2
  rw [window_eq_slice, show min 4 (s.len - s.offset) = min 3 (s.len - (s.offset + 1)) + 1 by omega,
    Memory.slice_succ]

end Sys2Proof.Machine
end

