-- ==== Sys2Proof/Laws/Ops.lean ====
section
/-! SUPPORT. What each shared operation can do, said once: the guards, the effect of one decoded instruction, the meanings,
the step. -/

namespace Sys2Proof.Machine

/-! ## Guards -/

theorem whenRunning_of_running (s : State) (k : Outcome) (h : s.running) : whenRunning s k = k := by
  simp [whenRunning, h.1, h.2]

/-- A guarded operation answers a next state only when running, and then the guarded one. -/
theorem whenRunning_eq_next (s t : State) (k : Outcome) : whenRunning s k = .next t ↔ s.running ∧ k = .next t := by
  constructor
  · intro h
    by_cases hr : s.running
    · exact ⟨hr, by rwa [whenRunning_of_running s k hr] at h⟩
    · unfold whenRunning at h
      split at h
      · simp at h
      · split at h
        · next he hl => exact absurd ⟨not_not.mp he, hl⟩ hr
        · split at h <;> simp at h
  · rintro ⟨hr, rfl⟩
    exact whenRunning_of_running s _ hr

theorem whenRunning_of_failed (s : State) (k : Outcome) (h : s.failed) : whenRunning s k = .fault .passFailed := by
  simp [whenRunning, h]

theorem whenRunning_of_done (s : State) (k : Outcome) (h : s.done) : whenRunning s k = .fault .passDone := by
  simp [whenRunning, h.1, h.2]

/-- Outside `running` the guarded operation does not matter. -/
theorem whenRunning_of_not_running (s : State) (k k' : Outcome) (h : ¬ s.running) : whenRunning s k = whenRunning s k' := by
  unfold whenRunning
  split
  · rfl
  · split
    · next he hl => exact absurd ⟨not_not.mp he, hl⟩ h
    · rfl

theorem requireBytes_of_fits (needed : Nat) (s : State) (k : Outcome) (h : s.offset + needed ≤ s.len) :
    requireBytes needed s k = k := by
  simp [requireBytes, Nat.not_lt.mpr h]

theorem requireBytes_of_short (needed : Nat) (s : State) (k : Outcome) (h : s.len < s.offset + needed) :
    requireBytes needed s k = .next (s.setErr (.truncatedInstruction s.offset needed (s.len - s.offset))) := by
  simp [requireBytes, h, raise]

/-! ## One decoded instruction -/

theorem BitFields.two_le_prefixLength (f : BitFields) : 2 ≤ f.prefixLength := by
  cases f <;> simp [BitFields.prefixLength]

theorem BitFields.prefixLength_le_length (f : BitFields) : f.prefixLength ≤ f.length := by
  cases f <;> simp [BitFields.prefixLength, BitFields.length]

theorem dispLen_le (mod : Mod) (rm : RegIndex) : dispLen mod rm ≤ 2 := by
  cases mod <;> simp [dispLen]; split <;> omega

theorem BitFields.length_le (f : BitFields) : f.length ≤ 4 := by
  cases f with
  | immediate w reg imm => cases w <;> simp [BitFields.length, widthNumber]
  | regMem d w mod reg rm disp => have := dispLen_le mod rm; simp [BitFields.length]; omega

/-- The successful transition. -/
theorem transition_of_fits (f : BitFields) (s : State) (hr : s.running) (h : s.offset + f.length ≤ s.len) :
    transition f s = .next { s with out := s.out ++ [lineText f.dest f.src], offset := s.offset + f.length } := by
  have := f.prefixLength_le_length
  rw [transition, whenRunning_of_running s _ hr, requireBytes_of_fits _ s _ (by omega), requireBytes_of_fits _ s _ h]
  rfl

/-- The failing transition: the first bound check that fails names the bytes needed. -/
theorem transition_of_short (f : BitFields) (s : State) (hr : s.running) (h : s.len < s.offset + f.length) :
    transition f s = .next (s.setErr (.truncatedInstruction s.offset
      (if s.len < s.offset + f.prefixLength then f.prefixLength else f.length) (s.len - s.offset))) := by
  rw [transition, whenRunning_of_running s _ hr]
  split
  · next hp => exact requireBytes_of_short _ s _ hp
  · next hp => rw [requireBytes_of_fits _ s _ (by omega), requireBytes_of_short _ s _ h]

/-- Everything a transition can do when it answers a next state. -/
theorem transition_next (f : BitFields) (s t : State) (h : transition f s = .next t) :
    s.running ∧
    ((s.offset + f.length ≤ s.len ∧
        t = { s with out := s.out ++ [lineText f.dest f.src], offset := s.offset + f.length }) ∨
     (s.len < s.offset + f.length ∧ ∃ needed, 2 ≤ needed ∧ needed ≤ f.length ∧ s.len < s.offset + needed ∧
        t = s.setErr (.truncatedInstruction s.offset needed (s.len - s.offset)))) := by
  have hr : s.running := ((whenRunning_eq_next s t _).mp h).1
  refine ⟨hr, ?_⟩
  by_cases hl : s.offset + f.length ≤ s.len
  · rw [transition_of_fits f s hr hl] at h
    exact .inl ⟨hl, by simpa using h.symm⟩
  · rw [transition_of_short f s hr (by omega)] at h
    have h2 := f.two_le_prefixLength
    have h3 := f.prefixLength_le_length
    refine .inr ⟨by omega, _, ?_, ?_, ?_, by simpa using h.symm⟩ <;> split <;> omega

/-! ## Meanings -/

/-- A supported instruction's meaning is the transition of its BitFields record. -/
theorem exec_of_bitFields (i : Instr) (f : BitFields) (h : bitFields i = some f) (s : State) : exec i s = transition f s := by
  cases i <;> simp only [bitFields, Option.some.injEq, reduceCtorEq] at h <;> subst h <;> rfl

/-- The catch-all row's meaning. -/
theorem exec_unsupported (b : Byte) (s : State) :
    exec (.unsupported b) s = whenRunning s (raise (.unsupportedOpcode s.offset b) s) := rfl

/-- Only the catch-all row has no BitFields record. -/
theorem bitFields_eq_none_iff (i : Instr) : bitFields i = none ↔ ∃ b, i = .unsupported b := by
  cases i <;> simp [bitFields]

/-- The encoding's length is the record's length (30_encoding.md R53). -/
theorem length_encode_of_bitFields (i : Instr) (f : BitFields) (hwf : WellFormed i) (h : bitFields i = some f) :
    (encode i).length = f.length := by
  cases i <;> simp_all [bitFields, encode, WellFormed, Instr.wellFormed] <;> subst h <;>
    simp_all [BitFields.length, dispLen, widthNumber]

theorem length_encode_pos (i : Instr) : 1 ≤ (encode i).length := by cases i <;> simp [encode]

theorem length_encode_le (i : Instr) : (encode i).length ≤ 4 := by cases i <;> simp [encode]

/-- Everything a meaning can do when it answers a next state. -/
theorem exec_next (i : Instr) (s t : State) (h : exec i s = .next t) :
    s.running ∧
    ((∃ f, bitFields i = some f ∧ s.offset + f.length ≤ s.len ∧
        t = { s with out := s.out ++ [lineText f.dest f.src], offset := s.offset + f.length }) ∨
     (∃ f needed, bitFields i = some f ∧ 2 ≤ needed ∧ needed ≤ f.length ∧ s.len < s.offset + needed ∧
        t = s.setErr (.truncatedInstruction s.offset needed (s.len - s.offset))) ∨
     (∃ b, i = .unsupported b ∧ t = s.setErr (.unsupportedOpcode s.offset b))) := by
  cases hf : bitFields i with
  | some f =>
    rw [exec_of_bitFields i f hf] at h
    obtain ⟨hr, ⟨hl, ht⟩ | ⟨-, n, h1, h2, h3, ht⟩⟩ := transition_next f s t h
    · exact ⟨hr, .inl ⟨f, rfl, hl, ht⟩⟩
    · exact ⟨hr, .inr (.inl ⟨f, n, rfl, h1, h2, h3, ht⟩)⟩
  | none =>
    obtain ⟨b, rfl⟩ := (bitFields_eq_none_iff i).mp hf
    obtain ⟨hr, hk⟩ := (whenRunning_eq_next s t _).mp h
    exact ⟨hr, .inr (.inr ⟨b, rfl, by simpa [raise] using hk.symm⟩)⟩

/-! ## The step -/

/-- When running, the step runs what the window decodes to. -/
theorem step_of_running (s : State) (hr : s.running) :
    step s = match decode s.window with
      | .instr i => exec i s
      | .truncated _ needed => raise (.truncatedInstruction s.offset needed (s.len - s.offset)) s
      | .noByte => .fault .cursorBeyondBuffer :=
  whenRunning_of_running s _ hr

/-- Everything a step can do when it answers a next state. -/
theorem step_next (s t : State) (h : step s = .next t) :
    s.running ∧
    ((∃ i, decode s.window = .instr i ∧ exec i s = .next t) ∨
     (∃ seen needed, decode s.window = .truncated seen needed ∧
        t = s.setErr (.truncatedInstruction s.offset needed (s.len - s.offset)))) := by
  obtain ⟨hr, hk⟩ := (whenRunning_eq_next s t _).mp h
  refine ⟨hr, ?_⟩
  cases hd : decode s.window with
  | instr i => rw [hd] at hk; exact .inl ⟨i, rfl, hk⟩
  | truncated seen needed => rw [hd] at hk; exact .inr ⟨seen, needed, rfl, by simpa [raise] using hk.symm⟩
  | noByte => rw [hd] at hk; simp at hk

end Sys2Proof.Machine
end

