-- ==== Sys2Proof/Laws/PerInstr.lean ====
section
/-! SUPPORT. Statements made per instruction: one lemma per constructor of `Instr`. -/

namespace Sys2Proof.Laws.EncodedLength

/-- The number of bytes of a well-formed instruction is its row's length in spec/opcode_table.json, and that of its
BitFields record (30_encoding.md R53); the catch-all row is one byte. -/
def Statement (i : Instr) : Prop :=
  WellFormed i →
    match Machine.bitFields i with
    | some f => (encode i).length = f.length ∧
        ∃ r ∈ opcodeTable, r.mnemonic = i.mnemonic ∧ (encode i).length = r.length
    | none => (encode i).length = 1

/-- From the record, the row and the two equations. -/
theorem of_row (i : Instr) (f : Machine.BitFields) (r : OpcodeRow) (hf : Machine.bitFields i = some f)
    (hr : r ∈ opcodeTable) (hm : r.mnemonic = i.mnemonic) (hl : (encode i).length = r.length) : Statement i := by
  intro hwf
  rw [hf]
  exact ⟨Machine.length_encode_of_bitFields i f hwf hf, r, hr, hm, hl⟩

theorem movReg8Imm8 (reg : RegIndex) (imm : Byte) : Statement (.movReg8Imm8 reg imm) :=
  of_row _ _ opcodeTable[0] rfl (by simp [opcodeTable]) rfl rfl

theorem movReg16Imm16 (reg : RegIndex) (imm : Half) : Statement (.movReg16Imm16 reg imm) :=
  of_row _ _ opcodeTable[1] rfl (by simp [opcodeTable]) rfl rfl

theorem movRmRegMod11 (w : Width) (reg rm : RegIndex) : Statement (.movRmRegMod11 w reg rm) :=
  of_row _ _ opcodeTable[2] rfl (by simp [opcodeTable]) rfl rfl

theorem movRmRegMod00 (w : Width) (reg rm : RegIndex) : Statement (.movRmRegMod00 w reg rm) :=
  of_row _ _ opcodeTable[3] rfl (by simp [opcodeTable]) rfl rfl

theorem movRmRegDirect (w : Width) (reg : RegIndex) (addr : Half) : Statement (.movRmRegDirect w reg addr) :=
  of_row _ _ opcodeTable[4] rfl (by simp [opcodeTable]) rfl rfl

theorem movRmRegMod01 (w : Width) (reg rm : RegIndex) (disp : Byte) : Statement (.movRmRegMod01 w reg rm disp) :=
  of_row _ _ opcodeTable[5] rfl (by simp [opcodeTable]) rfl rfl

theorem movRmRegMod10 (w : Width) (reg rm : RegIndex) (disp : Half) : Statement (.movRmRegMod10 w reg rm disp) :=
  of_row _ _ opcodeTable[6] rfl (by simp [opcodeTable]) rfl rfl

theorem movRegRmMod11 (w : Width) (reg rm : RegIndex) : Statement (.movRegRmMod11 w reg rm) :=
  of_row _ _ opcodeTable[7] rfl (by simp [opcodeTable]) rfl rfl

theorem movRegRmMod00 (w : Width) (reg rm : RegIndex) : Statement (.movRegRmMod00 w reg rm) :=
  of_row _ _ opcodeTable[8] rfl (by simp [opcodeTable]) rfl rfl

theorem movRegRmDirect (w : Width) (reg : RegIndex) (addr : Half) : Statement (.movRegRmDirect w reg addr) :=
  of_row _ _ opcodeTable[9] rfl (by simp [opcodeTable]) rfl rfl

theorem movRegRmMod01 (w : Width) (reg rm : RegIndex) (disp : Byte) : Statement (.movRegRmMod01 w reg rm disp) :=
  of_row _ _ opcodeTable[10] rfl (by simp [opcodeTable]) rfl rfl

theorem movRegRmMod10 (w : Width) (reg rm : RegIndex) (disp : Half) : Statement (.movRegRmMod10 w reg rm disp) :=
  of_row _ _ opcodeTable[11] rfl (by simp [opcodeTable]) rfl rfl

theorem unsupported (byteValue : Byte) : Statement (.unsupported byteValue) := fun _ => rfl

end Sys2Proof.Laws.EncodedLength
end

