-- ==== Sys2Proof/Laws/Text.lean ====
section
/-! SUPPORT. The laws of decimal text: what it is made of, how long it is, and that it is never empty. -/

namespace Sys2Proof.Machine

theorem digitChar_isDigit (d : Nat) : (digitChar d).isDigit = true := by
  unfold digitChar; split <;> decide

theorem digitChar_ne_zero (d : Nat) (h : 1 ≤ d) : digitChar d ≠ '0' := by
  unfold digitChar; split <;> simp_all

theorem digitChar_value (d : Nat) (h : d < 10) : (digitChar d).toNat - '0'.toNat = d := by
  interval_cases d <;> decide

theorem decimalDigits_ne_nil (fuel n : Nat) : decimalDigits fuel n ≠ [] := by
  unfold decimalDigits; split
  · simp
  · split <;> simp

theorem decimalDigits_all_isDigit (fuel n : Nat) : (decimalDigits fuel n).all Char.isDigit = true := by
  induction fuel generalizing n with
  | zero => simp [decimalDigits, digitChar_isDigit]
  | succ fuel ih =>
    unfold decimalDigits
    split
    · simp [digitChar_isDigit]
    · rw [List.all_append, ih]; simp [digitChar_isDigit]

/-- The digits read back as the number. -/
theorem decimalDigits_value (fuel n : Nat) (h : n < 10 ^ (fuel + 1)) :
    (decimalDigits fuel n).foldl (fun acc c => 10 * acc + (c.toNat - '0'.toNat)) 0 = n := by
  induction fuel generalizing n with
  | zero => simp only [decimalDigits, List.foldl]; rw [digitChar_value _ (by omega)]; omega
  | succ fuel ih =>
    unfold decimalDigits
    split
    · next hn => simp only [List.foldl]; rw [digitChar_value n hn]; omega
    · rw [List.foldl_append, ih (n / 10) (by rw [pow_succ] at h; omega)]
      simp only [List.foldl]
      rw [digitChar_value _ (by omega)]; omega

/-- A number of two or more digits does not begin with `0`. -/
theorem decimalDigits_head (fuel n : Nat) (h : n < 10 ^ (fuel + 1)) (hn : 1 ≤ n) :
    ∀ c, (decimalDigits fuel n).head? = some c → c ≠ '0' := by
  induction fuel generalizing n with
  | zero =>
    intro c hc
    simp [decimalDigits] at hc
    subst hc
    exact digitChar_ne_zero _ (by omega)
  | succ fuel ih =>
    intro c hc
    unfold decimalDigits at hc
    split at hc
    · simp at hc; subst hc; exact digitChar_ne_zero _ hn
    · rw [List.head?_append_of_ne_nil _ (decimalDigits_ne_nil _ _)] at hc
      exact ih (n / 10) (by rw [pow_succ] at h; omega) (by omega) c hc

/-- A number below `10 ^ k` has at most `k` digits. -/
theorem length_decimalDigits_le (fuel n k : Nat) (hk : 1 ≤ k) (h : n < 10 ^ k) : (decimalDigits fuel n).length ≤ k := by
  induction fuel generalizing n k with
  | zero => simpa [decimalDigits] using hk
  | succ fuel ih =>
    unfold decimalDigits
    split
    · simpa using hk
    · next hn =>
      obtain ⟨j, rfl⟩ : ∃ j, k = j + 1 := ⟨k - 1, by omega⟩
      have hj : 1 ≤ j := by
        rcases Nat.eq_zero_or_pos j with rfl | h0
        · simp at h; omega
        · exact h0
      have := ih (n / 10) j hj (by rw [pow_succ] at h; omega)
      simp; omega

theorem lt_pow_succ_self (n : Nat) : n < 10 ^ (n + 1) :=
  Nat.lt_of_lt_of_le (Nat.lt_pow_self (by decide)) (Nat.pow_le_pow_right (by decide) (by omega))

@[simp] theorem natText_toList (n : Nat) : (natText n).toList = decimalDigits n n := by
  simp [natText]

theorem decText_of_nonneg (n : Int) (h : 0 ≤ n) : decText n = natText n.natAbs := by
  simp [decText, Int.not_lt.mpr h]

theorem decText_of_neg (n : Int) (h : n < 0) : decText n = "-" ++ natText n.natAbs := by
  simp [decText, h]

/-- A natural number's text is in the grammar's `unsigned`. -/
theorem natText_isUnsigned (n : Nat) : isUnsigned (natText n).toList = true := by
  rw [natText_toList]
  rcases Nat.eq_zero_or_pos n with rfl | hn
  · rfl
  · have hall := decimalDigits_all_isDigit n n
    have hhead := decimalDigits_head n n (lt_pow_succ_self n) hn
    match hd : decimalDigits n n with
    | [] => exact absurd hd (decimalDigits_ne_nil n n)
    | [c] => rw [hd] at hall; simpa [isUnsigned] using hall
    | c :: d :: rest =>
      rw [hd] at hall hhead
      have hc := hhead c rfl
      simp only [List.all_cons, Bool.and_eq_true] at hall
      simp [isUnsigned, hall.1, hall.2.1, hall.2.2, hc]

/-- Any number's text is in the grammar's `number`. -/
theorem decText_isNumber (n : Int) : isNumber (decText n) := by
  unfold decText
  split
  · exact .inr ⟨natText n.natAbs, rfl, natText_isUnsigned _⟩
  · exact .inl (natText_isUnsigned _)

theorem length_natText_le (n k : Nat) (hk : 1 ≤ k) (h : n < 10 ^ k) : (natText n).length ≤ k := by
  rw [← String.length_toList, natText_toList]
  exact length_decimalDigits_le n n k hk h

end Sys2Proof.Machine
end

