-- ==== Sys2Proof/Tests/Slice0.lean ====
section
/-! SUPPORT. The model's own tests: ill-formed terms refused, words written out from the spec's encodings, one step per
instruction with the results of 95_test_vectors.md, and for every statement with hypotheses a state that meets them. -/

namespace Sys2Proof.Tests

open Sys2Proof.Machine

/-! ## WellFormed: one ill-formed term per check -/

theorem test_illFormed_rmRegMod00_rm110 : ¬ WellFormed (.movRmRegMod00 .word 0b000#3 0b110#3) := by decide
theorem test_illFormed_regRmMod00_rm110 : ¬ WellFormed (.movRegRmMod00 .byte 0b111#3 0b110#3) := by decide
theorem test_illFormed_unsupported_immediate : ¬ WellFormed (.unsupported 0xBF#8) := by decide
theorem test_illFormed_unsupported_regMem : ¬ WellFormed (.unsupported 0x88#8) := by decide

/-! ## Decoding words written out bit by bit (30_encoding.md section 1) -/

theorem test_decode_movReg8Imm8 : decode [0b10110_111#8, 0x9C#8] = .instr (.movReg8Imm8 0b111#3 0x9C#8) := by decide
theorem test_decode_movReg16Imm16 :
    decode [0b10111_101#8, 0xCE#8, 0xED#8] = .instr (.movReg16Imm16 0b101#3 0xEDCE#16) := by decide
theorem test_decode_movRmRegMod11 :
    decode [0b100010_0_1#8, 0b11_100_101#8] = .instr (.movRmRegMod11 .word 0b100#3 0b101#3) := by decide
theorem test_decode_movRmRegMod00 :
    decode [0b100010_0_0#8, 0b00_110_111#8] = .instr (.movRmRegMod00 .byte 0b110#3 0b111#3) := by decide
theorem test_decode_movRmRegDirect :
    decode [0b100010_0_1#8, 0b00_001_110#8, 0x02#8, 0x01#8] = .instr (.movRmRegDirect .word 0b001#3 0x0102#16) := by decide
theorem test_decode_movRmRegMod01 :
    decode [0b100010_0_0#8, 0b01_101_110#8, 0x7F#8] = .instr (.movRmRegMod01 .byte 0b101#3 0b110#3 0x7F#8) := by decide
theorem test_decode_movRmRegMod10 :
    decode [0b100010_0_1#8, 0b10_001_100#8, 0xD4#8, 0xFE#8] =
      .instr (.movRmRegMod10 .word 0b001#3 0b100#3 0xFED4#16) := by decide
theorem test_decode_movRegRmMod11 :
    decode [0b100010_1_0#8, 0b11_000_001#8] = .instr (.movRegRmMod11 .byte 0b000#3 0b001#3) := by decide
theorem test_decode_movRegRmMod00 :
    decode [0b100010_1_1#8, 0b00_011_011#8] = .instr (.movRegRmMod00 .word 0b011#3 0b011#3) := by decide
theorem test_decode_movRegRmDirect :
    decode [0b100010_1_1#8, 0b00_101_110#8, 0x10#8, 0x27#8] = .instr (.movRegRmDirect .word 0b101#3 0x2710#16) := by decide
theorem test_decode_movRegRmMod01 :
    decode [0b100010_1_1#8, 0b01_001_010#8, 0x05#8] = .instr (.movRegRmMod01 .word 0b001#3 0b010#3 0x05#8) := by decide
theorem test_decode_movRegRmMod10 :
    decode [0b100010_1_0#8, 0b10_000_000#8, 0x87#8, 0x13#8] =
      .instr (.movRegRmMod10 .byte 0b000#3 0b000#3 0x1387#16) := by decide
theorem test_decode_unsupported : decode [0xC7#8, 0x06#8] = .instr (.unsupported 0xC7#8) := by decide

/-- Each row's `match` word of opcode_table.json, numbered as the table numbers it, gives the row (log 15). -/
theorem test_decodeTableWord_rows :
    opcodeTable.map (fun r => (decodeTableWord 16 r.pattern.toNat).map Instr.mnemonic) =
      opcodeTable.map fun r => some r.mnemonic := by decide
theorem test_decodeTableWord_unsupported : decodeTableWord 8 0x8C = some (.unsupported 0x8C#8) := by decide
theorem test_decodeTableWord_operandBytes : decodeTableWord 24 0x34B8FF = some (.movReg16Imm16 0b000#3 0x34FF#16) := by decide

/-! ## One step on a buffer holding one instruction (95_test_vectors.md parts 1 and 2) -/

/-- The line, the cursor and the error record after the first step on a buffer. -/
def afterStep (bytes : List Byte) : Option (Option String × Nat × Option DecodeError) :=
  match step (.resetWith bytes) with
  | .next t => some (t.out[2]?, t.offset, t.err)
  | .fault _ => none
  | .refused _ => none

theorem test_step_S3_imm8 : afterStep [0xB0#8, 0xFF#8] = some (some "mov al, -1", 2, none) := by decide
theorem test_step_imm8_dataByte : afterStep [0xB0#8, 0x90#8] = some (some "mov al, -112", 2, none) := by decide
theorem test_step_S3_imm16 : afterStep [0xB8#8, 0x00#8, 0x80#8] = some (some "mov ax, -32768", 3, none) := by decide
theorem test_step_imm16_order : afterStep [0xBC#8, 0x34#8, 0x12#8] = some (some "mov sp, 4660", 3, none) := by decide
theorem test_step_S7 : afterStep [0x89#8, 0xD8#8] = some (some "mov ax, bx", 2, none) := by decide
theorem test_step_mod11_rm110 : afterStep [0x89#8, 0xF0#8] = some (some "mov ax, si", 2, none) := by decide
theorem test_step_rmRegMod00 : afterStep [0x89#8, 0x09#8] = some (some "mov [bx + di], cx", 2, none) := by decide
theorem test_step_S4_direct : afterStep [0x89#8, 0x0E#8, 0x00#8, 0x80#8] = some (some "mov [-32768], cx", 4, none) := by decide
theorem test_step_rmRegMod01 : afterStep [0x89#8, 0x4C#8, 0xFB#8] = some (some "mov [si - 5], cx", 3, none) := by decide
theorem test_step_rmRegMod01_bp : afterStep [0x88#8, 0x6E#8, 0x00#8] = some (some "mov [bp], ch", 3, none) := by decide
theorem test_step_rmRegMod10 :
    afterStep [0x89#8, 0x8C#8, 0xD4#8, 0xFE#8] = some (some "mov [si - 300], cx", 4, none) := by decide
theorem test_step_regRmMod11 : afterStep [0x8B#8, 0xEC#8] = some (some "mov bp, sp", 2, none) := by decide
theorem test_step_regRmMod00 : afterStep [0x8A#8, 0x00#8] = some (some "mov al, [bx + si]", 2, none) := by decide
theorem test_step_regRmDirect :
    afterStep [0x8B#8, 0x2E#8, 0x00#8, 0x00#8] = some (some "mov bp, [0]", 4, none) := by decide
theorem test_step_regRmMod01 : afterStep [0x8B#8, 0x41#8, 0x80#8] = some (some "mov ax, [bx + di - 128]", 3, none) := by decide
theorem test_step_regRmMod10_min :
    afterStep [0x8B#8, 0x87#8, 0x00#8, 0x80#8] = some (some "mov ax, [bx - 32768]", 4, none) := by decide
theorem test_step_regRmMod10_zero :
    afterStep [0x8B#8, 0x80#8, 0x00#8, 0x00#8] = some (some "mov ax, [bx + si]", 4, none) := by decide

theorem test_step_unsupported_below88 :
    afterStep [0x87#8, 0xD8#8] = some (none, 0, some (.unsupportedOpcode 0 0x87#8)) := by decide
theorem test_step_unsupported_lastByte : afterStep [0xFF#8] = some (none, 0, some (.unsupportedOpcode 0 0xFF#8)) := by decide
theorem test_step_S8 : afterStep [0xB8#8] = some (none, 0, some (.truncatedInstruction 0 3 1)) := by decide
theorem test_step_truncated_byte1 : afterStep [0x8B#8] = some (none, 0, some (.truncatedInstruction 0 2 1)) := by decide
theorem test_step_truncated_disp8 :
    afterStep [0x8A#8, 0x46#8] = some (none, 0, some (.truncatedInstruction 0 3 2)) := by decide
theorem test_step_truncated_direct :
    afterStep [0x8B#8, 0x06#8, 0x01#8] = some (none, 0, some (.truncatedInstruction 0 4 3)) := by decide

/-! ## Two short passes (95_test_vectors.md parts 2.10 and 3) -/

theorem test_pass_P7_empty : decodeBuffer [] = (["bits 16", ""], 0, none) := by decide
theorem test_pass_unsupported_second :
    decodeBuffer [0xB8#8, 0x01#8, 0x00#8, 0x90#8, 0x89#8, 0xD8#8] =
      (["bits 16", "", "mov ax, 1"], 3, some (.unsupportedOpcode 3 0x90#8)) := by decide
theorem test_errorCodes :
    (errorCode none, errorCode (some (.unsupportedOpcode 3 0x90#8)), errorCode (some (.truncatedInstruction 6 3 2))) =
      (0, 1, 2) := by decide
theorem test_bufReads_truncated : bufReads (.resetWith [0x8B#8, 0x06#8, 0x01#8]) = [0, 1] := by decide

/-! ## Witnesses: every statement's hypotheses are met somewhere -/

/-- A state before the first step of a pass. -/
abbrev start (bytes : List Byte) : State := .resetWith bytes

theorem witness_ImmediateFormFields :
    classify 0xB0#8 = .immediateToRegister ∧ classify 0xBF#8 = .immediateToRegister := by decide

theorem witness_RegMemFormFields :
    classify 0x88#8 = .regMemToFromRegister ∧ classify 0x8B#8 = .regMemToFromRegister := by decide

theorem witness_DecodeInvertsEncode :
    WellFormed (.movRegRmMod00 .word 0b000#3 0b111#3) ∧ WellFormed (.unsupported 0x00#8) := by decide

theorem witness_EncodeInvertsDecode : decode [0x8B#8, 0x07#8, 0xFF#8] = .instr (.movRegRmMod00 .word 0b000#3 0b111#3) := by
  decide

theorem witness_TruncationNeedsLeastLength : decode [0x8B#8, 0x86#8, 0x01#8] = .truncated 2 4 := by decide

theorem witness_MemReadLittleEndian :
    0 + 1 ≤ (start [0x01#8]).len ∧ 0 + 2 ≤ (start [0x01#8, 0x02#8]).len ∧ (start []).len < 0 + 1 ∧
      (start [0x01#8]).len < 0 + 2 := by decide

theorem witness_ResetBufferReadsCallersBytes : 0 < [0x00#8].length := by decide

theorem witness_ReadsStayInsideTheBuffer : 0 ∈ bufReads (start [0xFF#8]) ∧ (start [0xFF#8]).running := by decide

/-- The byte after the one read differs, and the hypothesis holds. -/
theorem witness_StepDependsOnlyOnBytesRead :
    ∀ a ∈ bufReads (start [0xFF#8, 0x01#8]), Memory.read [(0, 0xFF#8), (1, 0x02#8)] a = (start [0xFF#8, 0x01#8]).buf.read a := by
  decide

theorem witness_ResetValues : [0x00#8] ≠ [] ∧ ([] : List Byte) = [] := by decide

theorem witness_ExactlyOneStatusHolds : (start []).offset ≤ (start []).len := by decide

theorem witness_NoTransitionUnlessRunning :
    ((start [0xFF#8]).setErr (.unsupportedOpcode 0 0xFF#8)).failed ∧ (start []).done := by decide

theorem witness_ImmediateFormsAppendTheirLine :
    (start [0xB0#8, 0xFF#8]).running ∧ (start [0xB0#8, 0xFF#8]).offset + 2 ≤ (start [0xB0#8, 0xFF#8]).len ∧
      (start [0xB8#8, 0x01#8, 0x00#8]).running ∧
      (start [0xB8#8, 0x01#8, 0x00#8]).offset + 3 ≤ (start [0xB8#8, 0x01#8, 0x00#8]).len := by decide

/-- A running state that holds the longest instruction meets every clause of the two statements, with `rm = 111`. -/
theorem witness_RegisterToRmFormsAppendTheirLine :
    (start [0x89#8, 0x0E#8, 0x00#8, 0x80#8]).running ∧ (0b111#3 : RegIndex) ≠ 0b110#3 ∧
      (start [0x89#8, 0x0E#8, 0x00#8, 0x80#8]).offset + 4 ≤ (start [0x89#8, 0x0E#8, 0x00#8, 0x80#8]).len := by decide

theorem witness_RmToRegisterFormsAppendTheirLine :
    (start [0x8B#8, 0x0E#8, 0x00#8, 0x80#8]).running ∧ (0b000#3 : RegIndex) ≠ 0b110#3 ∧
      (start [0x8B#8, 0x0E#8, 0x00#8, 0x80#8]).offset + 4 ≤ (start [0x8B#8, 0x0E#8, 0x00#8, 0x80#8]).len := by decide

theorem witness_UnsupportedWritesTheErrorRecord : (start [0xFF#8]).running := by decide

theorem witness_MovPastTheEndIsTruncated :
    Supported (.movReg8Imm8 0b000#3 0xFF#8) ∧ (start [0xB0#8]).running ∧
      (start [0xB0#8]).len < (start [0xB0#8]).offset + (encode (.movReg8Imm8 0b000#3 0xFF#8)).length := by
  refine ⟨⟨rfl, ?_⟩, ?_, ?_⟩ <;> decide

/-- Both outcomes of the frame: a line, and a truncation. -/
theorem witness_FrameOfMovForms :
    Supported (.movReg8Imm8 0b000#3 0xFF#8) ∧
      (∃ t, exec (.movReg8Imm8 0b000#3 0xFF#8) (start [0xB0#8, 0xFF#8]) = .next t ∧ t.err = none) ∧
      ∃ t, exec (.movReg8Imm8 0b000#3 0xFF#8) (start [0xB0#8]) = .next t ∧ t.err ≠ none :=
  ⟨⟨rfl, by decide⟩, ⟨_, rfl, rfl⟩, ⟨_, rfl, by decide⟩⟩

theorem witness_FrameOfUnsupported : ∃ t, exec (.unsupported 0xFF#8) (start [0xFF#8]) = .next t := ⟨_, rfl⟩

theorem witness_StepRunsDecodedInstruction :
    (start [0x89#8, 0xD8#8, 0x01#8]).running ∧ WellFormed (.movRmRegMod11 .word 0b011#3 0b000#3) ∧
      (start [0x89#8, 0xD8#8, 0x01#8]).window = encode (.movRmRegMod11 .word 0b011#3 0b000#3) ++ [0x01#8] := by decide

theorem witness_StepIsThePseudocode : (start [0x89#8, 0xD8#8]).running ∧ ¬ (start []).running := by decide

/-- A successful step, and a buffer for each clause: `0xB0`, `0xBF`, and byte 1 in each of the five cases. -/
theorem witness_CursorAdvancesByTableLength :
    (∃ t, step (start [0xBF#8, 0x01#8, 0x00#8]) = .next t ∧ t.err = none) ∧ 0xBF / 16 = 0b1011 ∧
      (∃ t, step (start [0x8B#8, 0xC0#8]) = .next t ∧ t.err = none) ∧ 0x8B / 4 = 0b100010 ∧ 0xC0 / 64 = 0b11 ∧
      (∃ t, step (start [0x88#8, 0x05#8]) = .next t ∧ t.err = none) ∧ 0x05 / 64 = 0b00 ∧ 0x05 % 8 ≠ 0b110 ∧
      (∃ t, step (start [0x88#8, 0x3E#8, 0x00#8, 0x00#8]) = .next t ∧ t.err = none) ∧ 0x3E / 64 = 0b00 ∧ 0x3E % 8 = 0b110 ∧
      (∃ t, step (start [0x88#8, 0x7F#8, 0x00#8]) = .next t ∧ t.err = none) ∧ 0x7F / 64 = 0b01 ∧
      (∃ t, step (start [0x88#8, 0x80#8, 0x00#8, 0x00#8]) = .next t ∧ t.err = none) ∧ 0x80 / 64 = 0b10 :=
  ⟨⟨_, rfl, rfl⟩, by decide, ⟨_, rfl, rfl⟩, by decide, by decide, ⟨_, rfl, rfl⟩, by decide, by decide, ⟨_, rfl, rfl⟩,
    by decide, by decide, ⟨_, rfl, rfl⟩, by decide, ⟨_, rfl, rfl⟩, by decide⟩

theorem witness_UnsupportedByteRaises :
    (start [0x87#8]).running ∧ (start [0x88#8]).running ∧ (start [0x8B#8]).running ∧ (start [0x8C#8]).running ∧
      (start [0xAF#8]).running ∧ (start [0xB0#8]).running ∧ (start [0xBF#8]).running ∧ (start [0xC0#8]).running := by decide

/-- One buffer for each clause, at the ends of the ranges of `available`. -/
theorem witness_TruncationCases :
    (start [0xB7#8]).running ∧ 0xB7 / 8 = 0b10110 ∧ (start [0xB7#8]).len - 0 = 1 ∧
      (start [0xB8#8, 0x01#8]).running ∧ 0xB8 / 8 = 0b10111 ∧ (start [0xB8#8, 0x01#8]).len - 0 = 2 ∧
      (start [0x88#8]).running ∧ 0x88 / 4 = 0b100010 ∧ (start [0x88#8]).len - 0 = 1 ∧
      (start [0x8B#8, 0x40#8]).running ∧ 0x40 / 64 = 0b01 ∧ (start [0x8B#8, 0x40#8]).len - 0 = 2 ∧
      (start [0x8B#8, 0xBF#8, 0x01#8]).running ∧ 0xBF / 64 = 0b10 ∧ (start [0x8B#8, 0xBF#8, 0x01#8]).len - 0 = 3 ∧
      (start [0x8B#8, 0x06#8]).running ∧ 0x06 / 64 = 0b00 ∧ 0x06 % 8 = 0b110 ∧ (start [0x8B#8, 0x06#8]).len - 0 = 2 := by
  decide

theorem witness_RaiseWritesOnlyTheErrorRecord : ∃ t, step (start [0xFF#8]) = .next t ∧ t.err ≠ none :=
  ⟨_, rfl, by decide⟩

theorem witness_OutputIsAppendOnly :
    (∃ t, step (start [0x89#8, 0xD8#8]) = .next t ∧ t.err = none) ∧ ∃ t, step (start [0x89#8]) = .next t ∧ t.err ≠ none :=
  ⟨⟨_, rfl, rfl⟩, ⟨_, rfl, by decide⟩⟩

theorem witness_CursorBoundedAndMonotone :
    (∃ t, step (start [0x89#8, 0xD8#8]) = .next t ∧ t.err = none) ∧ ∃ t, step (start [0x00#8]) = .next t ∧ t.err ≠ none :=
  ⟨⟨_, rfl, rfl⟩, ⟨_, rfl, by decide⟩⟩

theorem witness_InsEventTellsTheTransition :
    (start [0xB0#8, 0xFF#8]).running ∧
      insEvent (start [0xB0#8, 0xFF#8]) = some ⟨"mov", .reg 0b000#3 .byte, .imm (-1), 2⟩ ∧
      (start [0xB0#8]).running ∧ insEvent (start [0xB0#8]) = none := by decide

theorem witness_FetchWordIsRunNext :
    State.reset.buf.wf ∧ decodeTableWord 16 0x88C0 = some (.movRmRegMod11 .byte 0b000#3 0b000#3) := by decide

theorem witness_RmSideByMod : (0b101#3 : RegIndex) ≠ 0b110#3 ∧ Mod.mod00 ≠ .mod11 := by decide

theorem witness_MemTextByDisplacement : (0 : Int) = 0 ∧ (1 : Int) > 0 ∧ (-1 : Int) < 0 := by decide

theorem witness_DecTextIsTheDecimalNumeral : (-1 : Int) < 0 := by decide

theorem witness_OneLineFromSeveralEncodings : (0b000#3 : RegIndex) ≠ 0b110#3 := by decide

theorem witness_EveryLineIsInTheGrammar : ∃ t, step (start [0x89#8, 0xD8#8]) = .next t ∧ t.err = none := ⟨_, rfl, rfl⟩

theorem witness_LongestLineHas25Characters :
    instrLine (.movReg8Imm8 0b000#3 0x00#8) = some "mov al, 0" := by decide

/-- A buffer of one instruction meets the invariant before its step. -/
theorem witness_StepKeepsTheInvariant :
    (start [0x89#8, 0xD8#8]).Inv ∧ ∃ t, step (start [0x89#8, 0xD8#8]) = .next t :=
  ⟨{ cursor_le := by decide
     buf_wf := by decide
     buf_bounded := by decide
     err_truthful := trivial
     scanned := ⟨[], by simp, rfl, rfl⟩ }, ⟨_, rfl⟩⟩

theorem witness_PassDecodesAnEncodedProgram :
    ∀ i ∈ [Instr.movReg16Imm16 0b000#3 0x0001#16, .movRmRegMod11 .word 0b011#3 0b000#3], Supported i := by
  intro i hi
  rcases List.mem_cons.mp hi with rfl | hi
  · exact ⟨rfl, by decide⟩
  · rw [List.mem_singleton] at hi; subst hi; exact ⟨rfl, by decide⟩

/-- A program of one instruction, and a tail for each clause. -/
theorem witness_PassFailsAtTheFirstBadByte :
    (∀ i ∈ [Instr.movReg16Imm16 0b000#3 0x0001#16], Supported i) ∧
      decode [0x90#8, 0x89#8, 0xD8#8] = .instr (.unsupported 0x90#8) ∧ decode [0x8B#8, 0x56#8] = .truncated 2 3 := by
  refine ⟨fun i hi => ?_, by decide, by decide⟩
  rw [List.mem_singleton] at hi; subst hi; exact ⟨rfl, by decide⟩

theorem witness_CompletePassIsADisassembly : (decodePass [0x89#8, 0xD8#8]).done := by decide

theorem witness_OneByteImmediateBufferIsTruncated : classify 0xB0#8 = .immediateToRegister := by decide

end Sys2Proof.Tests
end

namespace Sys2Proof.Machine

/-! ## Reads of the buffer (20_memory.md R32) -/

theorem memRead1_of_le (s : State) (addr : Nat) (h : addr + 1 ≤ s.len) :
    s.memRead1 addr = some (s.buf.read addr) := if_pos h

theorem memRead1_of_lt (s : State) (addr : Nat) (h : s.len < addr + 1) : s.memRead1 addr = none :=
  if_neg (Nat.not_le_of_lt h)

theorem memRead2_of_le (s : State) (addr : Nat) (h : addr + 2 ≤ s.len) :
    s.memRead2 addr = some (littleEndian (s.buf.read addr) (s.buf.read (addr + 1))) := if_pos h

theorem memRead2_of_lt (s : State) (addr : Nat) (h : s.len < addr + 2) : s.memRead2 addr = none :=
  if_neg (Nat.not_le_of_lt h)

/-- Settles O9: each read's bound test has one branch inside the buffer and one outside, and the two bytes of a 16-bit
read stand low byte first. -/
theorem memReadLittleEndian : Obligations.MemReadLittleEndian := fun s addr =>
  ⟨memRead1_of_le s addr,
    fun h => ⟨_, memRead2_of_le s addr h, rfl, littleEndian_toNat _ _⟩,
    memRead1_of_lt s addr,
    memRead2_of_lt s addr⟩

end Sys2Proof.Machine


namespace Sys2Proof.Machine

/-! ## The classifier by the number of byte 0 (30_encoding.md R46) -/

theorem topFourBits_eq_iff (b0 : Byte) : b0.extractLsb' 4 4 = 0b1011#4 ↔ b0.toNat / 16 = 0b1011 := by
  have := b0.isLt
  rw [← BitVec.toNat_inj, BitVec.extractLsb'_toNat, Nat.shiftRight_eq_div_pow]
  simp only [BitVec.toNat_ofNat]
  omega

theorem topSixBits_eq_iff (b0 : Byte) : b0.extractLsb' 2 6 = 0b100010#6 ↔ b0.toNat / 4 = 0b100010 := by
  have := b0.isLt
  rw [← BitVec.toNat_inj, BitVec.extractLsb'_toNat, Nat.shiftRight_eq_div_pow]
  simp only [BitVec.toNat_ofNat]
  omega

/-- The two tests of the classifier are the quotients of byte 0 by 16 and by 4. -/
theorem classify_eq (b0 : Byte) : classify b0 =
    if b0.toNat / 16 = 0b1011 then .immediateToRegister
    else if b0.toNat / 4 = 0b100010 then .regMemToFromRegister
    else .unsupported := by
  simp only [classify, topFourBits_eq_iff, topSixBits_eq_iff]

theorem classify_of_topFour (b0 : Byte) (h : b0.toNat / 16 = 0b1011) : classify b0 = .immediateToRegister := by
  rw [classify_eq, if_pos h]

theorem classify_of_topSix (b0 : Byte) (h : b0.toNat / 4 = 0b100010) : classify b0 = .regMemToFromRegister := by
  have hfour : ¬ b0.toNat / 16 = 0b1011 := by omega
  rw [classify_eq, if_neg hfour, if_pos h]

/-- Settles O1, by the values of the two bit fields that the classifier tests. -/
theorem classifierTestsTopBits : Obligations.ClassifierTestsTopBits := classify_eq

/-! ## The record's fields as the spec computes them (30_encoding.md R48 to R52) -/

theorem sextByte_toNat (b : Byte) : Pseudocode.sextByte b.toNat = b.toInt := by
  rw [Pseudocode.sextByte, BitVec.toInt_eq_toNat_cond]
  split <;> split <;> omega

theorem sextHalf_littleEndian (lo hi : Byte) :
    Pseudocode.sextHalf (lo.toNat + 256 * hi.toNat) = (littleEndian lo hi).toInt := by
  rw [← littleEndian_toNat, Pseudocode.sextHalf, BitVec.toInt_eq_toNat_cond]
  split <;> split <;> omega

theorem ofNat_immReg (b0 : Byte) : BitVec.ofNat 3 (b0.toNat % 8) = immReg b0 := by
  rw [← immReg_toNat, BitVec.ofNat_toNat, BitVec.setWidth_eq]

theorem widthNumber_eq_bit (w : Width) : widthNumber w = w.bit.toNat := by cases w <;> rfl

/-- `DispLen` of the extracted fields is `DispLen` of the fields as numbers. -/
theorem dispLen_fields (b1 : Byte) :
    dispLen (modField b1) (rmField b1) = Pseudocode.dispLength (b1.toNat / 64) (b1.toNat % 8) := by
  have hdirect : rmField b1 = 0b110#3 ↔ (rmField b1).toNat = 6 := BitVec.toNat_inj.symm
  rw [← modField_bits_toNat, ← rmField_toNat]
  cases modField b1 <;> simp [dispLen, Pseudocode.dispLength, Mod.bits, hdirect]

/-! ## What the decoder's instruction has as its record (30_encoding.md R61) -/

/-- The immediate form's instruction carries the fields of byte 0. -/
theorem decodeImmediate_bitFields (b0 : Byte) (rest : List Byte) (i : Instr) (h : decodeImmediate b0 rest = .instr i) :
    ∃ imm, bitFields i = some (.immediate (immWidth b0) (immReg b0) imm) := by
  unfold decodeImmediate at h
  split at h <;> cases h <;> simp [bitFields, *]

theorem decodeMod00_bitFields (d : Direction) (w : Width) (reg rm : RegIndex) (rest : List Byte) (i : Instr)
    (h : decodeMod00 d w reg rm rest = .instr i) : ∃ disp, bitFields i = some (.regMem d w .mod00 reg rm disp) := by
  unfold decodeMod00 at h
  split at h
  · next hrm => split at h <;> cases h <;> simp [bitFields, hrm]
  · split at h <;> cases h <;> simp [bitFields]

theorem decodeMod01_bitFields (d : Direction) (w : Width) (reg rm : RegIndex) (rest : List Byte) (i : Instr)
    (h : decodeMod01 d w reg rm rest = .instr i) : ∃ disp, bitFields i = some (.regMem d w .mod01 reg rm disp) := by
  unfold decodeMod01 at h
  split at h <;> cases h <;> simp [bitFields]

theorem decodeMod10_bitFields (d : Direction) (w : Width) (reg rm : RegIndex) (rest : List Byte) (i : Instr)
    (h : decodeMod10 d w reg rm rest = .instr i) : ∃ disp, bitFields i = some (.regMem d w .mod10 reg rm disp) := by
  unfold decodeMod10 at h
  split at h <;> cases h <;> simp [bitFields]

theorem decodeMod11_bitFields (d : Direction) (w : Width) (reg rm : RegIndex) (i : Instr)
    (h : decodeMod11 d w reg rm = .instr i) : ∃ disp, bitFields i = some (.regMem d w .mod11 reg rm disp) := by
  unfold decodeMod11 at h
  split at h <;> cases h <;> simp [bitFields]

/-- The register/memory form's instruction has a byte 1 and carries the fields of bytes 0 and 1. -/
theorem decodeRegMem_bitFields (b0 : Byte) (rest : List Byte) (i : Instr) (h : decodeRegMem b0 rest = .instr i) :
    ∃ b1 tail disp, rest = b1 :: tail ∧
      bitFields i = some (.regMem (rmDirection b0) (rmWidth b0) (modField b1) (regField b1) (rmField b1) disp) := by
  rcases rest with _ | ⟨b1, tail⟩
  · simp [decodeRegMem] at h
  · suffices hf : ∃ disp, bitFields i =
        some (.regMem (rmDirection b0) (rmWidth b0) (modField b1) (regField b1) (rmField b1) disp) by
      obtain ⟨disp, hf⟩ := hf
      exact ⟨b1, tail, disp, rfl, hf⟩
    unfold decodeRegMem at h
    cases hm : modField b1 <;> simp only [hm] at h
    case mod00 => exact decodeMod00_bitFields _ _ _ _ _ _ h
    case mod01 => exact decodeMod01_bitFields _ _ _ _ _ _ h
    case mod10 => exact decodeMod10_bitFields _ _ _ _ _ _ h
    case mod11 => exact decodeMod11_bitFields _ _ _ _ _ h

/-- Settles O2: the width bit of byte 0 selects the row, whose operand is the next byte or the next two. -/
theorem immediateFormFields : Obligations.ImmediateFormFields := by
  intro b0 lo hi rest hc
  rw [decode_immediate b0 _ hc, ofNat_immReg, sextByte_toNat, sextHalf_littleEndian, ← immWidth_bit_toNat]
  cases hw : immWidth b0 with
  | byte => exact ⟨.movReg8Imm8 (immReg b0) lo, by simp [decodeImmediate, hw], rfl, rfl⟩
  | word => exact ⟨.movReg16Imm16 (immReg b0) (littleEndian lo hi), by simp [decodeImmediate, hw], rfl, rfl⟩

/-! ## The advance of the cursor (30_encoding.md R53) -/

theorem Memory.head_of_slice_eq_cons (m : Memory) (a n : Nat) (b : Byte) (tail : List Byte)
    (h : m.slice a n = b :: tail) : b = m.read a := by
  cases n with
  | zero => simp at h
  | succ n => exact (List.cons.inj (m.slice_succ a n ▸ h)).1.symm

/-- A successful step advances the cursor by the length of the record of what stands there. -/
theorem step_success_offset (s t : State) (h : step s = .next t) (hok : t.err = none) :
    s.running ∧ ∃ i f, decode s.window = .instr i ∧ bitFields i = some f ∧ t.offset = s.offset + f.length := by
  obtain ⟨hr, ⟨i, hd, he⟩ | ⟨_, _, -, rfl⟩⟩ := step_next s t h
  · obtain ⟨-, ⟨f, hf, -, rfl⟩ | ⟨_, _, -, -, -, -, rfl⟩ | ⟨_, -, rfl⟩⟩ := exec_next i s t he
    · exact ⟨hr, i, f, hd, hf, rfl⟩
    · simp at hok
    · simp at hok
  · simp at hok

/-- `L = 2 + w` for the immediate form. -/
theorem step_success_offset_immediate (s t : State) (h : step s = .next t) (hok : t.err = none)
    (hc : classify (s.buf.read s.offset) = .immediateToRegister) :
    t.offset = s.offset + (2 + (s.buf.read s.offset).toNat / 8 % 2) := by
  obtain ⟨hr, i, f, hd, hf, hoff⟩ := step_success_offset s t h hok
  rw [window_of_running s hr, decode_immediate _ _ hc] at hd
  obtain ⟨imm, hrec⟩ := decodeImmediate_bitFields _ _ _ hd
  obtain rfl := Option.some.inj (hf.symm.trans hrec)
  rw [hoff, BitFields.length, widthNumber_eq_bit, immWidth_bit_toNat]

/-- `L = 2 + DispLen(mod, rm)` for the register/memory form. -/
theorem step_success_offset_regMem (s t : State) (h : step s = .next t) (hok : t.err = none)
    (hc : classify (s.buf.read s.offset) = .regMemToFromRegister) :
    t.offset = s.offset + (2 + Pseudocode.dispLength ((s.buf.read (s.offset + 1)).toNat / 64)
      ((s.buf.read (s.offset + 1)).toNat % 8)) := by
  obtain ⟨hr, i, f, hd, hf, hoff⟩ := step_success_offset s t h hok
  rw [window_of_running s hr, decode_regMem _ _ hc] at hd
  obtain ⟨b1, tail, disp, hrest, hrec⟩ := decodeRegMem_bitFields _ _ _ hd
  obtain rfl := Memory.head_of_slice_eq_cons _ _ _ _ _ hrest
  obtain rfl := Option.some.inj (hf.symm.trans hrec)
  rw [hoff, BitFields.length, dispLen_fields]

/-- Settles O25: the two formulas for `L`, the second at each row of `DispLen`. -/
theorem cursorAdvancesByTableLength : Obligations.CursorAdvancesByTableLength := by
  intro s t h hok b0 b1
  refine ⟨fun hfour => step_success_offset_immediate s t h hok (classify_of_topFour _ hfour), fun hsix => ?_⟩
  have hL : t.offset = s.offset + (2 + Pseudocode.dispLength (b1 / 64) (b1 % 8)) :=
    step_success_offset_regMem s t h hok (classify_of_topSix _ hsix)
  refine ⟨fun hmod => ?_, fun hmod hrm => ?_, fun hmod hrm => ?_, fun hmod => ?_, fun hmod => ?_⟩ <;>
    simp [Pseudocode.dispLength, *]

end Sys2Proof.Machine


namespace Sys2Proof.Machine

/-! ## The operands of a record (42_operand_resolution_and_formatting.md R86, R92, R93) -/

@[simp] theorem rmSide_mod11 (rm : RegIndex) (w : Width) (disp : Int) : rmSide .mod11 rm w disp = .reg rm w := rfl

@[simp] theorem rmSide_mod00_direct (w : Width) (disp : Int) : rmSide .mod00 0b110#3 w disp = .memDirect disp := rfl

theorem rmSide_mod00_of_ne (rm : RegIndex) (w : Width) (disp : Int) (h : rm ≠ 0b110#3) :
    rmSide .mod00 rm w disp = .memBase rm disp := if_neg h

@[simp] theorem rmSide_mod01 (rm : RegIndex) (w : Width) (disp : Int) : rmSide .mod01 rm w disp = .memBase rm disp := rfl

@[simp] theorem rmSide_mod10 (rm : RegIndex) (w : Width) (disp : Int) : rmSide .mod10 rm w disp = .memBase rm disp := rfl

/-- The width enters the RM side only as that of a register. -/
theorem rmSide_width_irrel (mod : Mod) (rm : RegIndex) (w w' : Width) (disp : Int) (h : mod ≠ .mod11) :
    rmSide mod rm w disp = rmSide mod rm w' disp := by
  cases mod with
  | mod11 => exact absurd rfl h
  | mod00 => rfl
  | mod01 => rfl
  | mod10 => rfl

/-- Settles O33: one equation per row of `mod`, and a memory operand does not hold the width. -/
theorem rmSideByMod : Obligations.RmSideByMod := fun rm w w' disp =>
  ⟨rmSide_mod11 rm w disp,
    rmSide_mod00_direct w disp,
    rmSide_mod00_of_ne rm w disp,
    rmSide_mod01 rm w disp,
    rmSide_mod10 rm w disp,
    fun mod h => congrArg Operand.text (rmSide_width_irrel mod rm w w' disp h)⟩

@[simp] theorem BitFields.dest_toReg (w : Width) (mod : Mod) (reg rm : RegIndex) (disp : Int) :
    (BitFields.regMem .toReg w mod reg rm disp).dest = .reg reg w := rfl

@[simp] theorem BitFields.src_toReg (w : Width) (mod : Mod) (reg rm : RegIndex) (disp : Int) :
    (BitFields.regMem .toReg w mod reg rm disp).src = rmSide mod rm w disp := rfl

@[simp] theorem BitFields.dest_toRm (w : Width) (mod : Mod) (reg rm : RegIndex) (disp : Int) :
    (BitFields.regMem .toRm w mod reg rm disp).dest = rmSide mod rm w disp := rfl

@[simp] theorem BitFields.src_toRm (w : Width) (mod : Mod) (reg rm : RegIndex) (disp : Int) :
    (BitFields.regMem .toRm w mod reg rm disp).src = .reg reg w := rfl

@[simp] theorem BitFields.dest_immediate (w : Width) (reg : RegIndex) (imm : Int) :
    (BitFields.immediate w reg imm).dest = .reg reg w := rfl

@[simp] theorem BitFields.src_immediate (w : Width) (reg : RegIndex) (imm : Int) :
    (BitFields.immediate w reg imm).src = .imm imm := rfl

/-- Settles O36: the two operands for each direction and for the immediate form. -/
theorem destinationAndSourceByDirection : Obligations.DestinationAndSourceByDirection := fun w mod reg rm v =>
  ⟨BitFields.dest_toReg w mod reg rm v,
    BitFields.src_toReg w mod reg rm v,
    BitFields.dest_toRm w mod reg rm v,
    BitFields.src_toRm w mod reg rm v,
    BitFields.dest_immediate w reg v,
    BitFields.src_immediate w reg v⟩

/-! ## The texts of operands (42_operand_resolution_and_formatting.md R85, R87, R88, R91) -/

@[simp] theorem Operand.text_reg (index : RegIndex) (w : Width) :
    (Operand.reg index w).text = registerTable index w := rfl

@[simp] theorem Operand.text_imm (v : Int) : (Operand.imm v).text = decText v := rfl

@[simp] theorem Operand.text_memDirect (v : Int) : (Operand.memDirect v).text = "[" ++ decText v ++ "]" := rfl

@[simp] theorem Operand.text_memBase (rm : RegIndex) (disp : Int) : (Operand.memBase rm disp).text = memText rm disp := rfl

/-- Settles O34: one equation per kind of operand, and R87's own example values evaluated. -/
theorem operandTexts : Obligations.OperandTexts :=
  ⟨Operand.text_memDirect, Operand.text_imm, Operand.text_reg, by decide, by decide, by decide, by decide⟩

/-- `Dec` of the absolute value is the text of the natural number. -/
theorem decText_abs (n : Int) : decText |n| = natText n.natAbs := by
  rw [decText_of_nonneg |n| (abs_nonneg n), Int.natAbs_abs]

theorem memText_zero (rm : RegIndex) : memText rm 0 = "[" ++ effectiveAddressTable rm ++ "]" := rfl

theorem memText_of_pos (rm : RegIndex) (disp : Int) (h : disp > 0) :
    memText rm disp = "[" ++ effectiveAddressTable rm ++ " + " ++ decText disp ++ "]" := by
  rw [memText, if_neg h.ne', if_pos h]

theorem memText_of_neg (rm : RegIndex) (disp : Int) (h : disp < 0) :
    memText rm disp = "[" ++ effectiveAddressTable rm ++ " - " ++ decText |disp| ++ "]" := by
  rw [memText, if_neg h.ne, if_neg h.not_gt, decText_abs]

/-- The absolute value of -32768 is 32768, which 16 signed bits do not hold. -/
theorem memText_neg_32768 (rm : RegIndex) : memText rm (-32768) = "[" ++ effectiveAddressTable rm ++ " - 32768]" := by
  have hdec : decText |-32768| = "32768" := by rw [decText_abs]; decide
  have hsuffix : " - " ++ "32768" ++ "]" = " - 32768]" := by decide
  rw [memText_of_neg rm (-32768) (by decide), hdec, ← hsuffix]
  simp only [String.append_assoc]

/-- Settles O35: the three branches of the test on the displacement's value, and the least 16-bit displacement. -/
theorem memTextByDisplacement : Obligations.MemTextByDisplacement := fun rm disp =>
  ⟨fun h => h ▸ memText_zero rm,
    memText_of_pos rm disp,
    memText_of_neg rm disp,
    memText_neg_32768 rm⟩

end Sys2Proof.Machine


namespace Sys2Proof.Machine

/-! ## The unsupported byte (60_exceptions.md R101) -/

/-- The classifier's third verdict is the complement of the two ranges of byte 0. -/
theorem classify_eq_unsupported_iff (b0 : Byte) : classify b0 = .unsupported ↔
    ¬ ((0x88 ≤ b0.toNat ∧ b0.toNat ≤ 0x8B) ∨ (0xB0 ≤ b0.toNat ∧ b0.toNat ≤ 0xBF)) := by
  have hfour : b0.toNat / 16 = 0b1011 ↔ 0xB0 ≤ b0.toNat ∧ b0.toNat ≤ 0xBF := by omega
  have hsix : b0.toNat / 4 = 0b100010 ↔ 0x88 ≤ b0.toNat ∧ b0.toNat ≤ 0x8B := by omega
  rw [classify_eq, ← hfour, ← hsix]
  split
  · next h => simp [h]
  · next h =>
    split
    · next h' => simp [h']
    · next h' => simp [h, h']

/-- Only an unsupported byte 0 decodes to the catch-all row: each of the two forms has a record. -/
theorem classify_of_decode_unsupported (b0 b : Byte) (rest : List Byte)
    (h : decode (b0 :: rest) = .instr (.unsupported b)) : classify b0 = .unsupported := by
  cases hc : classify b0 with
  | immediateToRegister =>
    obtain ⟨imm, hf⟩ := decodeImmediate_bitFields b0 rest _ (decode_immediate b0 rest hc ▸ h)
    cases hf
  | regMemToFromRegister =>
    obtain ⟨_, _, _, _, hf⟩ := decodeRegMem_bitFields b0 rest _ (decode_regMem b0 rest hc ▸ h)
    cases hf
  | unsupported => rfl

theorem decode_window_of_unsupported (s : State) (hr : s.running)
    (hc : classify (s.buf.read s.offset) = .unsupported) :
    decode s.window = .instr (.unsupported (s.buf.read s.offset)) := by
  rw [window_of_running s hr, decode_unsupported _ _ hc]

theorem step_of_unsupported (s : State) (hr : s.running) (hc : classify (s.buf.read s.offset) = .unsupported) :
    step s = .next (s.setErr (.unsupportedOpcode s.offset (s.buf.read s.offset))) := by
  rw [step_of_running s hr, decode_window_of_unsupported s hr hc]
  exact whenRunning_of_running s _ hr

/-- Byte 0 alone is read when it is unsupported (20_memory.md R44). -/
theorem bufReads_of_unsupported (s : State) (hr : s.running) (hc : classify (s.buf.read s.offset) = .unsupported) :
    bufReads s = [s.offset] := by
  rw [bufReads, if_pos hr, decode_window_of_unsupported s hr hc]
  rfl

/-- A step that records `UnsupportedOpcode` has an unsupported byte at the cursor. -/
theorem classify_of_step_unsupportedOpcode (s t : State) (offset : Nat) (b : Byte) (h : step s = .next t)
    (herr : t.err = some (.unsupportedOpcode offset b)) : classify (s.buf.read s.offset) = .unsupported := by
  obtain ⟨hr, ⟨i, hd, he⟩ | ⟨_, _, -, rfl⟩⟩ := step_next s t h
  · obtain ⟨-, ⟨f, -, -, rfl⟩ | ⟨_, _, -, -, -, -, rfl⟩ | ⟨b', rfl, rfl⟩⟩ := exec_next i s t he
    · exact absurd (hr.1.symm.trans herr) (by simp)
    · simp at herr
    · rw [window_of_running s hr] at hd
      exact classify_of_decode_unsupported _ b' _ hd
  · simp at herr

/-- Settles O26: both directions go through the classifier's verdict on the byte at the cursor. -/
theorem unsupportedByteRaises : Obligations.UnsupportedByteRaises := by
  intro s hr b0 supported
  have hverdict : classify b0 = .unsupported ↔ ¬ supported := classify_eq_unsupported_iff b0
  constructor
  · intro hout
    have hc := hverdict.mpr hout
    exact ⟨⟨_, step_of_unsupported s hr hc, rfl⟩, bufReads_of_unsupported s hr hc⟩
  · intro hin t offset byteValue hstep herr
    exact hverdict.mp (classify_of_step_unsupportedOpcode s t offset byteValue hstep herr) hin

end Sys2Proof.Machine


namespace Sys2Proof

/-! ## Decoding inverts encoding (30_encoding.md sections 1 to 5) -/

theorem decode_immByte0 (w : Width) (reg : RegIndex) (rest : List Byte) :
    decode (immByte0 w reg :: rest) = decodeImmediate (immByte0 w reg) rest :=
  decode_immediate _ rest (classify_immByte0 w reg)

theorem decode_rmByte0 (d : Direction) (w : Width) (rest : List Byte) :
    decode (rmByte0 d w :: rest) = decodeRegMem (rmByte0 d w) rest :=
  decode_regMem _ rest (classify_rmByte0 d w)

/-- Decoding an encoding gives the instruction back: the fields put into bytes 0 and 1 select its row again. -/
theorem decode_encode_append (i : Instr) (rest : List Byte) (hwf : WellFormed i) :
    decode (encode i ++ rest) = .instr i := by
  cases i with
  | unsupported b => exact decode_unsupported b rest ((wellFormed_unsupported_iff b).mp hwf)
  | movReg8Imm8 reg imm => simp [encode, decode_immByte0, decodeImmediate]
  | movReg16Imm16 reg imm => simp [encode, decode_immByte0, decodeImmediate]
  | movRmRegMod00 w reg rm =>
    have hrm : rm ≠ 0b110#3 := by simpa [WellFormed, Instr.wellFormed] using hwf
    simp [encode, decode_rmByte0, decodeRegMem, decodeMod00, hrm]
  | movRegRmMod00 w reg rm =>
    have hrm : rm ≠ 0b110#3 := by simpa [WellFormed, Instr.wellFormed] using hwf
    simp [encode, decode_rmByte0, decodeRegMem, decodeMod00, hrm]
  | movRmRegDirect w reg addr => simp [encode, decode_rmByte0, decodeRegMem, decodeMod00]
  | movRegRmDirect w reg addr => simp [encode, decode_rmByte0, decodeRegMem, decodeMod00]
  | movRmRegMod01 w reg rm disp => simp [encode, decode_rmByte0, decodeRegMem, decodeMod01]
  | movRegRmMod01 w reg rm disp => simp [encode, decode_rmByte0, decodeRegMem, decodeMod01]
  | movRmRegMod10 w reg rm disp => simp [encode, decode_rmByte0, decodeRegMem, decodeMod10]
  | movRegRmMod10 w reg rm disp => simp [encode, decode_rmByte0, decodeRegMem, decodeMod10]
  | movRmRegMod11 w reg rm => simp [encode, decode_rmByte0, decodeRegMem, decodeMod11]
  | movRegRmMod11 w reg rm => simp [encode, decode_rmByte0, decodeRegMem, decodeMod11]

/-- Settles O5: the catch-all row by its constraint, every other row by the fields of its first two bytes. -/
theorem decodeInvertsEncode : Obligations.DecodeInvertsEncode := decode_encode_append

/-! ## What decodes begins with its encoding (30_encoding.md sections 1 to 6) -/

/-- `bytes` begin with the encoding of `i`, an instruction that has one. -/
def BeginsWith (bytes : List Byte) (i : Instr) : Prop := WellFormed i ∧ ∃ rest, bytes = encode i ++ rest

theorem decodeImmediate_beginsWith (w : Width) (reg : RegIndex) (rest : List Byte) (i : Instr)
    (h : decodeImmediate (immByte0 w reg) rest = .instr i) : BeginsWith (immByte0 w reg :: rest) i := by
  unfold decodeImmediate at h
  rw [immWidth_immByte0] at h
  split at h <;> cases h <;> simp [BeginsWith, WellFormed, Instr.wellFormed, encode]

theorem decodeMod00_beginsWith (d : Direction) (w : Width) (reg rm : RegIndex) (rest : List Byte) (i : Instr)
    (h : decodeMod00 d w reg rm rest = .instr i) : BeginsWith (rmByte0 d w :: rmByte1 .mod00 reg rm :: rest) i := by
  unfold decodeMod00 at h
  split at h
  · next hrm => split at h <;> cases h <;> simp [BeginsWith, WellFormed, Instr.wellFormed, encode, hrm]
  · next hrm => split at h <;> cases h <;> simp [BeginsWith, WellFormed, Instr.wellFormed, encode, hrm]

theorem decodeMod01_beginsWith (d : Direction) (w : Width) (reg rm : RegIndex) (rest : List Byte) (i : Instr)
    (h : decodeMod01 d w reg rm rest = .instr i) : BeginsWith (rmByte0 d w :: rmByte1 .mod01 reg rm :: rest) i := by
  unfold decodeMod01 at h
  split at h <;> cases h <;> simp [BeginsWith, WellFormed, Instr.wellFormed, encode]

theorem decodeMod10_beginsWith (d : Direction) (w : Width) (reg rm : RegIndex) (rest : List Byte) (i : Instr)
    (h : decodeMod10 d w reg rm rest = .instr i) : BeginsWith (rmByte0 d w :: rmByte1 .mod10 reg rm :: rest) i := by
  unfold decodeMod10 at h
  split at h <;> cases h <;> simp [BeginsWith, WellFormed, Instr.wellFormed, encode]

theorem decodeMod11_beginsWith (d : Direction) (w : Width) (reg rm : RegIndex) (rest : List Byte) (i : Instr)
    (h : decodeMod11 d w reg rm = .instr i) : BeginsWith (rmByte0 d w :: rmByte1 .mod11 reg rm :: rest) i := by
  unfold decodeMod11 at h
  split at h <;> cases h <;> simp [BeginsWith, WellFormed, Instr.wellFormed, encode]

theorem decodeRegMem_beginsWith (d : Direction) (w : Width) (rest : List Byte) (i : Instr)
    (h : decodeRegMem (rmByte0 d w) rest = .instr i) : BeginsWith (rmByte0 d w :: rest) i := by
  rcases rest with _ | ⟨b1, tail⟩
  · simp [decodeRegMem] at h
  · rw [← rmByte1_of_fields b1]
    unfold decodeRegMem at h
    simp only [rmDirection_rmByte0, rmWidth_rmByte0] at h
    cases hm : modField b1 <;> simp only [hm] at h
    case mod00 => exact decodeMod00_beginsWith d w _ _ tail i h
    case mod01 => exact decodeMod01_beginsWith d w _ _ tail i h
    case mod10 => exact decodeMod10_beginsWith d w _ _ tail i h
    case mod11 => exact decodeMod11_beginsWith d w _ _ tail i h

/-- The converse of `decode_encode_append`: each byte read is rebuilt from the fields the decoder took of it. -/
theorem beginsWith_of_decode (bytes : List Byte) (i : Instr) (h : decode bytes = .instr i) : BeginsWith bytes i := by
  rcases bytes with _ | ⟨b0, rest⟩
  · simp [decode] at h
  · cases hc : classify b0 with
    | immediateToRegister =>
      rw [decode_immediate b0 rest hc] at h
      rw [← immByte0_of_fields b0 hc] at h ⊢
      exact decodeImmediate_beginsWith _ _ rest i h
    | regMemToFromRegister =>
      rw [decode_regMem b0 rest hc] at h
      rw [← rmByte0_of_fields b0 hc] at h ⊢
      exact decodeRegMem_beginsWith _ _ rest i h
    | unsupported =>
      rw [decode_unsupported b0 rest hc] at h
      cases h
      exact ⟨(wellFormed_unsupported_iff b0).mpr hc, rest, rfl⟩

/-- Settles O6: an instruction's bytes are the encodings of the fields the decoder read. -/
theorem encodeInvertsDecode : Obligations.EncodeInvertsDecode := beginsWith_of_decode

end Sys2Proof


namespace Sys2Proof.Machine

/-! ## The record of the register/memory form (30_encoding.md R50 to R52) -/

/-- The displacement of `n` bytes, of which `lo` is the first and `hi` the second (30_encoding.md R52). -/
def displacement (n : Nat) (lo hi : Byte) : Int :=
  if n = 0 then 0 else if n = 1 then lo.toInt else (littleEndian lo hi).toInt

/-- The record that the four bytes of the register/memory form give. -/
def regMemFields (b0 b1 lo hi : Byte) : BitFields :=
  .regMem (rmDirection b0) (rmWidth b0) (modField b1) (regField b1) (rmField b1)
    (displacement (dispLen (modField b1) (rmField b1)) lo hi)

theorem decodeMod00_displacement (d : Direction) (w : Width) (reg rm : RegIndex) (lo hi : Byte) (rest : List Byte) :
    ∃ i, decodeMod00 d w reg rm (lo :: hi :: rest) = .instr i ∧
      bitFields i = some (.regMem d w .mod00 reg rm (displacement (dispLen .mod00 rm) lo hi)) := by
  unfold decodeMod00
  by_cases hrm : rm = 0b110#3
  · subst hrm
    cases d <;> exact ⟨_, rfl, rfl⟩
  · simp only [if_neg hrm, dispLen]
    cases d <;> exact ⟨_, rfl, rfl⟩

/-- Two bytes after byte 1 are enough under every `mod`, and the record is that of `mod`'s row. -/
theorem decodeRegMem_fields (b0 b1 lo hi : Byte) (rest : List Byte) :
    ∃ i, decodeRegMem b0 (b1 :: lo :: hi :: rest) = .instr i ∧ bitFields i = some (regMemFields b0 b1 lo hi) := by
  simp only [decodeRegMem, regMemFields]
  cases modField b1 with
  | mod00 => exact decodeMod00_displacement _ _ _ _ lo hi rest
  | mod01 => cases rmDirection b0 <;> exact ⟨_, rfl, rfl⟩
  | mod10 => cases rmDirection b0 <;> exact ⟨_, rfl, rfl⟩
  | mod11 => cases rmDirection b0 <;> exact ⟨_, rfl, rfl⟩

theorem decode_regMemFields (b0 b1 lo hi : Byte) (rest : List Byte) (hc : classify b0 = .regMemToFromRegister) :
    ∃ i, decode (b0 :: b1 :: lo :: hi :: rest) = .instr i ∧ bitFields i = some (regMemFields b0 b1 lo hi) := by
  rw [decode_regMem b0 _ hc]
  exact decodeRegMem_fields b0 b1 lo hi rest

theorem ofNat_regField (b1 : Byte) : BitVec.ofNat 3 (b1.toNat / 8 % 8) = regField b1 := by
  rw [← regField_toNat, BitVec.ofNat_toNat, BitVec.setWidth_eq]

theorem ofNat_rmField (b1 : Byte) : BitVec.ofNat 3 (b1.toNat % 8) = rmField b1 := by
  rw [← rmField_toNat, BitVec.ofNat_toNat, BitVec.setWidth_eq]

/-- Settles O3: the record of the four bytes, its fields and its displacement written as numbers. -/
theorem regMemFormFields : Obligations.RegMemFormFields := by
  intro b0 b1 lo hi rest hc
  obtain ⟨i, hd, hf⟩ := decode_regMemFields b0 b1 lo hi rest hc
  rw [ofNat_regField, ofNat_rmField, ← dispLen_fields, sextByte_toNat, sextHalf_littleEndian]
  exact ⟨i, hd, _, _, _, _, hf, rmDirection_bit_toNat b0, rmWidth_bit_toNat b0, modField_bits_toNat b1, rfl⟩

/-! ## The length of what decodes (30_encoding.md R53) -/

theorem length_encode_of_decode (bytes : List Byte) (i : Instr) (f : BitFields) (hd : decode bytes = .instr i)
    (hf : bitFields i = some f) : (encode i).length = f.length :=
  length_encode_of_bitFields i f (beginsWith_of_decode bytes i hd).1 hf

theorem length_encode_le_of_decode (bytes : List Byte) (i : Instr) (hd : decode bytes = .instr i) :
    (encode i).length ≤ bytes.length := by
  obtain ⟨-, rest, rfl⟩ := beginsWith_of_decode bytes i hd
  simp

/-- More bytes after an instruction do not change it. -/
theorem decode_append_of_instr (bytes more : List Byte) (i : Instr) (hd : decode bytes = .instr i) :
    decode (bytes ++ more) = .instr i := by
  obtain ⟨hwf, rest, rfl⟩ := beginsWith_of_decode bytes i hd
  rw [List.append_assoc]
  exact decode_encode_append i _ hwf

/-! ## Truncated answers (60_exceptions.md R102) -/

theorem decodeRegMem_truncated_dispLen (b0 b1 : Byte) (tail : List Byte) (seen needed : Nat)
    (h : decodeRegMem b0 (b1 :: tail) = .truncated seen needed) :
    seen = 2 ∧ needed = 2 + dispLen (modField b1) (rmField b1) ∧ tail.length < dispLen (modField b1) (rmField b1) := by
  unfold decodeRegMem at h
  cases hm : modField b1 <;> simp only [hm] at h
  case mod00 =>
    obtain ⟨hrm, hseen, hneeded, hlen⟩ := decodeMod00_truncated _ _ _ _ _ _ _ h
    simp [dispLen, hrm, hseen, hneeded, hlen]
  case mod01 =>
    obtain ⟨hseen, hneeded, hlen⟩ := decodeMod01_truncated _ _ _ _ _ _ _ h
    exact ⟨hseen, hneeded, hlen⟩
  case mod10 =>
    obtain ⟨hseen, hneeded, hlen⟩ := decodeMod10_truncated _ _ _ _ _ _ _ h
    exact ⟨hseen, hneeded, hlen⟩
  case mod11 => exact absurd h (decodeMod11_not_truncated _ _ _ _ _ _)

/-- The recognised forms with bytes missing: `seen` bytes were read before the shortfall was known, and `needed` are asked
for (20_memory.md R44, 60_exceptions.md R102). -/
inductive Truncation : List Byte → Nat → Nat → Prop where
  | immediate (b0 : Byte) (rest : List Byte) (hc : classify b0 = .immediateToRegister)
      (hlen : rest.length < 1 + widthNumber (immWidth b0)) : Truncation (b0 :: rest) 1 (2 + widthNumber (immWidth b0))
  | byte1 (b0 : Byte) (hc : classify b0 = .regMemToFromRegister) : Truncation [b0] 1 2
  | displacement (b0 b1 : Byte) (tail : List Byte) (hc : classify b0 = .regMemToFromRegister)
      (hlen : tail.length < dispLen (modField b1) (rmField b1)) :
      Truncation (b0 :: b1 :: tail) 2 (2 + dispLen (modField b1) (rmField b1))

theorem decodeImmediate_of_short (b0 : Byte) (rest : List Byte) (hlen : rest.length < 1 + widthNumber (immWidth b0)) :
    decodeImmediate b0 rest = .truncated 1 (2 + widthNumber (immWidth b0)) := by
  cases hw : immWidth b0 with
  | byte =>
    rw [hw, widthNumber, Nat.add_zero, Nat.lt_one_iff, List.length_eq_zero_iff] at hlen
    simp [decodeImmediate, hw, hlen, widthNumber]
  | word =>
    rw [hw, widthNumber] at hlen
    rcases rest with _ | ⟨lo, _ | ⟨hi, rest⟩⟩
    · simp [decodeImmediate, hw, widthNumber]
    · simp [decodeImmediate, hw, widthNumber]
    · simp at hlen

theorem decodeRegMem_of_short (b0 b1 : Byte) (tail : List Byte) (hc : classify b0 = .regMemToFromRegister)
    (hlen : tail.length < dispLen (modField b1) (rmField b1)) :
    decodeRegMem b0 (b1 :: tail) = .truncated 2 (2 + dispLen (modField b1) (rmField b1)) := by
  cases hd : decodeRegMem b0 (b1 :: tail) with
  | truncated seen needed =>
    obtain ⟨rfl, rfl, -⟩ := decodeRegMem_truncated_dispLen b0 b1 tail seen needed hd
    rfl
  | noByte => exact absurd hd (decodeRegMem_ne_noByte _ _)
  | instr i =>
    obtain ⟨b1', tail', disp, heq, hf⟩ := decodeRegMem_bitFields b0 _ i hd
    obtain ⟨rfl, rfl⟩ := List.cons.inj heq
    rw [← decode_regMem b0 _ hc] at hd
    have hle := length_encode_le_of_decode _ i hd
    rw [length_encode_of_decode _ i _ hd hf] at hle
    simp only [BitFields.length, List.length_cons] at hle
    omega

/-- The decoder answers `truncated` in these three cases and no other. -/
theorem decode_truncated_iff (bytes : List Byte) (seen needed : Nat) :
    decode bytes = .truncated seen needed ↔ Truncation bytes seen needed := by
  constructor
  · intro h
    rcases bytes with _ | ⟨b0, rest⟩
    · simp [decode] at h
    · cases hc : classify b0 with
      | immediateToRegister =>
        rw [decode_immediate b0 rest hc] at h
        obtain ⟨rfl, rfl, hlen⟩ := decodeImmediate_truncated b0 rest seen needed h
        rw [← widthNumber_eq_bit] at hlen ⊢
        exact .immediate b0 rest hc (by omega)
      | regMemToFromRegister =>
        rw [decode_regMem b0 rest hc] at h
        rcases rest with _ | ⟨b1, tail⟩
        · cases h
          exact .byte1 b0 hc
        · obtain ⟨rfl, rfl, hlen⟩ := decodeRegMem_truncated_dispLen b0 b1 tail seen needed h
          exact .displacement b0 b1 tail hc hlen
      | unsupported =>
        rw [decode_unsupported b0 rest hc] at h
        cases h
  · rintro (⟨b0, rest, hc, hlen⟩ | ⟨b0, hc⟩ | ⟨b0, b1, tail, hc, hlen⟩)
    · rw [decode_immediate b0 rest hc, decodeImmediate_of_short b0 rest hlen]
    · rw [decode_regMem b0 [] hc]
      rfl
    · rw [decode_regMem b0 _ hc, decodeRegMem_of_short b0 b1 tail hc hlen]

end Sys2Proof.Machine


namespace Sys2Proof.Machine

theorem bitFields_of_decode_immediate (b0 : Byte) (rest : List Byte) (i : Instr)
    (hc : classify b0 = .immediateToRegister) (hd : decode (b0 :: rest) = .instr i) :
    ∃ imm, bitFields i = some (.immediate (immWidth b0) (immReg b0) imm) :=
  decodeImmediate_bitFields b0 rest i (decode_immediate b0 rest hc ▸ hd)

theorem bitFields_of_decode_regMem (b0 b1 : Byte) (tail : List Byte) (i : Instr)
    (hc : classify b0 = .regMemToFromRegister) (hd : decode (b0 :: b1 :: tail) = .instr i) :
    ∃ disp, bitFields i =
      some (.regMem (rmDirection b0) (rmWidth b0) (modField b1) (regField b1) (rmField b1) disp) := by
  obtain ⟨_, _, disp, heq, hf⟩ := decodeRegMem_bitFields b0 _ i (decode_regMem b0 _ hc ▸ hd)
  obtain ⟨rfl, rfl⟩ := List.cons.inj heq
  exact ⟨disp, hf⟩

/-- What a truncated answer asks for is what the record of any completion asks for: the bytes that fix the length while
one of them is missing, then the length (60_exceptions.md R102). -/
theorem Truncation.needed_eq {bytes : List Byte} {seen needed : Nat} (ht : Truncation bytes seen needed)
    (more : List Byte) (i : Instr) (hd : decode (bytes ++ more) = .instr i) :
    ∃ f, bitFields i = some f ∧ needed = if bytes.length < f.prefixLength then f.prefixLength else f.length := by
  cases ht with
  | immediate b0 rest hc hlen =>
    obtain ⟨imm, hf⟩ := bitFields_of_decode_immediate b0 _ i hc hd
    exact ⟨_, hf, (ite_self _).symm⟩
  | byte1 b0 hc =>
    obtain ⟨_, _, disp, -, hf⟩ := decodeRegMem_bitFields b0 _ i (decode_regMem b0 _ hc ▸ hd)
    exact ⟨_, hf, by simp [BitFields.prefixLength]⟩
  | displacement b0 b1 tail hc hlen =>
    obtain ⟨disp, hf⟩ := bitFields_of_decode_regMem b0 b1 _ i hc hd
    exact ⟨_, hf, by simp [BitFields.prefixLength, BitFields.length]⟩

/-- Some completion has exactly the length asked for: any one, but that an absent byte 1 is to have `mod = 11`. -/
theorem Truncation.completion {bytes : List Byte} {seen needed : Nat} (ht : Truncation bytes seen needed) :
    ∃ more i f, decode (bytes ++ more) = .instr i ∧ bitFields i = some f ∧ f.length = needed := by
  cases ht with
  | immediate b0 rest hc hlen =>
    obtain ⟨i, hd⟩ := decode_total (b0 :: rest ++ [0#8, 0#8, 0#8]) (by simp)
    obtain ⟨imm, hf⟩ := bitFields_of_decode_immediate b0 _ i hc hd
    exact ⟨_, i, _, hd, hf, rfl⟩
  | byte1 b0 hc =>
    obtain ⟨i, hd, hf⟩ := decode_regMemFields b0 0xC0#8 0#8 0#8 [] hc
    exact ⟨_, i, _, hd, hf, rfl⟩
  | displacement b0 b1 tail hc hlen =>
    obtain ⟨i, hd⟩ := decode_total (b0 :: b1 :: tail ++ [0#8, 0#8]) (by simp)
    obtain ⟨disp, hf⟩ := bitFields_of_decode_regMem b0 b1 _ i hc hd
    exact ⟨_, i, _, hd, hf, rfl⟩

/-- Settles O8: every completion has the record's lengths, and one completion is given. -/
theorem truncationNeedsLeastLength : Obligations.TruncationNeedsLeastLength := by
  intro bytes seen needed h
  obtain ⟨h1, h2, h3, h4⟩ := decode_truncated_bounds bytes seen needed h
  have ht := (decode_truncated_iff bytes seen needed).mp h
  refine ⟨h1, h2, h3, h4, fun more i hd => ?_, ?_⟩
  · obtain ⟨f, hf, hneeded⟩ := ht.needed_eq more i hd
    have hle := f.prefixLength_le_length
    rw [length_encode_of_decode _ i f hd hf, hneeded]
    split <;> omega
  · obtain ⟨more, i, f, hd, hf, hlen⟩ := ht.completion
    exact ⟨more, i, hd, by rw [length_encode_of_decode _ i f hd hf, hlen]⟩

/-! ## The bytes an answer rests on (20_memory.md R44) -/

theorem bytesRead_le_length (bytes : List Byte) : bytesRead (decode bytes) ≤ bytes.length := by
  cases hd : decode bytes with
  | instr i => exact length_encode_le_of_decode bytes i hd
  | truncated seen needed => exact (decode_truncated_bounds bytes seen needed hd).2.1
  | noByte => exact Nat.zero_le _

theorem bytesRead_pos (bytes : List Byte) (h : bytes ≠ []) : 1 ≤ bytesRead (decode bytes) := by
  cases hd : decode bytes with
  | instr i => exact length_encode_pos i
  | truncated seen needed => exact (decode_truncated_bounds bytes seen needed hd).1
  | noByte => exact absurd ((decode_noByte_iff bytes).mp hd) h

/-- A truncated answer rests on the bytes read and on how many there are. -/
theorem Truncation.congr {bytes bytes' : List Byte} {seen needed : Nat} (ht : Truncation bytes seen needed)
    (hlen : bytes'.length = bytes.length) (hread : bytes'.take seen = bytes.take seen) :
    Truncation bytes' seen needed := by
  cases ht with
  | immediate b0 rest hc hshort =>
    rcases bytes' with _ | ⟨b0', rest'⟩
    · simp at hlen
    · obtain rfl : b0' = b0 := by simpa using hread
      exact .immediate b0' rest' hc (by simp at hlen; omega)
  | byte1 b0 hc =>
    obtain ⟨b0', rfl⟩ := List.length_eq_one_iff.mp hlen
    obtain rfl : b0' = b0 := by simpa using hread
    exact .byte1 b0' hc
  | displacement b0 b1 tail hc hshort =>
    rcases bytes' with _ | ⟨b0', _ | ⟨b1', tail'⟩⟩
    · simp at hlen
    · simp at hlen
    · obtain ⟨rfl, rfl⟩ : b0' = b0 ∧ b1' = b1 := by simpa using hread
      exact .displacement b0' b1' tail' hc (by simp at hlen; omega)

/-- The decoder's answer rests on the bytes it reads and on how many there are. -/
theorem decode_congr (bytes bytes' : List Byte) (hlen : bytes'.length = bytes.length)
    (hread : bytes'.take (bytesRead (decode bytes)) = bytes.take (bytesRead (decode bytes))) :
    decode bytes' = decode bytes := by
  cases hd : decode bytes with
  | instr i =>
    obtain ⟨hwf, rest, rfl⟩ := beginsWith_of_decode bytes i hd
    rw [hd] at hread
    have hprefix : bytes'.take (encode i).length = encode i := by simpa [bytesRead] using hread
    rw [← List.take_append_drop (encode i).length bytes', hprefix]
    exact decode_encode_append i _ hwf
  | truncated seen needed =>
    rw [hd] at hread
    rw [decode_truncated_iff] at hd ⊢
    exact hd.congr hlen hread
  | noByte =>
    rw [decode_noByte_iff] at hd ⊢
    exact List.length_eq_zero_iff.mp (by rw [hlen, hd, List.length_nil])

end Sys2Proof.Machine


namespace Sys2Proof

/-! ## The opcode table (opcode_table.json): byte 0 selects the family, byte 1 the row in it -/

/-- A row's test of byte 0. -/
def OpcodeRow.selects0 (r : OpcodeRow) (b0 : Byte) : Bool := b0 &&& highByte r.mask == highByte r.pattern

/-- A row's test of byte 1, its constraint included. -/
def OpcodeRow.selects1 (r : OpcodeRow) (b1 : Byte) : Bool :=
  b1 &&& lowByte r.mask == lowByte r.pattern && !(r.excludesDirect && b1 &&& 0x07#8 == 0x06#8)

theorem littleEndian_and (lo hi : Byte) (m : Half) :
    littleEndian lo hi &&& m = littleEndian (lo &&& lowByte m) (hi &&& highByte m) := by
  conv_lhs => rw [← littleEndian_lowByte_highByte m]
  exact BitVec.and_append

theorem littleEndian_eq_iff (lo hi : Byte) (h : Half) : littleEndian lo hi = h ↔ hi = highByte h ∧ lo = lowByte h := by
  constructor
  · rintro rfl
    simp
  · rintro ⟨rfl, rfl⟩
    exact littleEndian_lowByte_highByte h

theorem OpcodeRow.applies_eq (r : OpcodeRow) (b0 b1 : Byte) : r.applies b0 b1 = (r.selects0 b0 && r.selects1 b1) := by
  have hword : ((b0 ++ b1) &&& r.mask == r.pattern) =
      (b0 &&& highByte r.mask == highByte r.pattern && b1 &&& lowByte r.mask == lowByte r.pattern) := by
    rw [Bool.eq_iff_iff, Bool.and_eq_true, beq_iff_eq, beq_iff_eq, beq_iff_eq]
    change littleEndian b1 b0 &&& r.mask = r.pattern ↔ _
    rw [littleEndian_and, littleEndian_eq_iff]
  rw [OpcodeRow.applies, hword, OpcodeRow.selects0, OpcodeRow.selects1, Bool.and_assoc]

theorem filter_applies (b0 b1 : Byte) :
    (opcodeTable.filter fun r => r.applies b0 b1) =
      (opcodeTable.filter fun r => r.selects0 b0).filter fun r => r.selects1 b1 := by
  simp only [OpcodeRow.applies_eq, List.filter_filter, Bool.and_comm]

/-- The row of the immediate form with width `w`. -/
def immediateRow (w : Width) : List OpcodeRow :=
  match w with
  | .byte => opcodeTable.take 1
  | .word => (opcodeTable.drop 1).take 1

theorem filter_selects0_immediate (w : Width) (reg : RegIndex) :
    (opcodeTable.filter fun r => r.selects0 (immByte0 w reg)) = immediateRow w := by
  cases w <;> revert reg <;> decide

/-- The five rows of the register/memory form with direction `d`. -/
def regMemRows (d : Direction) : List OpcodeRow :=
  match d with
  | .toRm => (opcodeTable.drop 2).take 5
  | .toReg => opcodeTable.drop 7

theorem filter_selects0_regMem (d : Direction) (w : Width) :
    (opcodeTable.filter fun r => r.selects0 (rmByte0 d w)) = regMemRows d := by
  cases d <;> cases w <;> decide

/-- The place of the row of `mod` and `rm` among the five. -/
def regMemRank (mod : Mod) (rm : RegIndex) : Nat :=
  match mod with
  | .mod11 => 0
  | .mod00 => if rm = 0b110#3 then 2 else 1
  | .mod01 => 3
  | .mod10 => 4

theorem filter_selects1_regMem (d : Direction) (mod : Mod) (reg rm : RegIndex) :
    ((regMemRows d).filter fun r => r.selects1 (rmByte1 mod reg rm)) =
      ((regMemRows d).drop (regMemRank mod rm)).take 1 := by
  cases d <;> cases mod <;> revert reg rm <;> decide

theorem filter_applies_regMem (d : Direction) (w : Width) (mod : Mod) (reg rm : RegIndex) :
    (opcodeTable.filter fun r => r.applies (rmByte0 d w) (rmByte1 mod reg rm)) =
      ((regMemRows d).drop (regMemRank mod rm)).take 1 := by
  rw [filter_applies, filter_selects0_regMem, filter_selects1_regMem]

theorem filter_applies_immediate (w : Width) (reg : RegIndex) (b1 : Byte) :
    (opcodeTable.filter fun r => r.applies (immByte0 w reg) b1) = immediateRow w := by
  rw [filter_applies, filter_selects0_immediate]
  cases w <;> simp [immediateRow, opcodeTable, OpcodeRow.selects1, lowByte]

theorem filter_selects0_unsupported (b0 : Byte) (hc : classify b0 = .unsupported) :
    (opcodeTable.filter fun r => r.selects0 b0) = [] := by
  revert b0; decide

theorem filter_applies_unsupported (b0 b1 : Byte) (hc : classify b0 = .unsupported) :
    (opcodeTable.filter fun r => r.applies b0 b1) = [] := by
  rw [filter_applies, filter_selects0_unsupported b0 hc, List.filter_nil]

/-- An instruction's bytes select its own row, with its length. -/
theorem row_of_encode (i : Instr) (b0 b1 : Byte) (tail : List Byte) (hwf : WellFormed i)
    (henc : encode i = b0 :: b1 :: tail) :
    (opcodeTable.filter fun r => r.applies b0 b1).map (fun r => (r.mnemonic, r.length)) =
      [(i.mnemonic, (encode i).length)] := by
  cases i with
  | unsupported b => simp [encode] at henc
  | movReg8Imm8 reg imm => cases henc; rw [filter_applies_immediate]; rfl
  | movReg16Imm16 reg imm => cases henc; rw [filter_applies_immediate]; rfl
  | movRmRegMod00 w reg rm =>
    have hrm : rm ≠ 0b110#3 := by simpa [WellFormed, Instr.wellFormed] using hwf
    cases henc
    rw [filter_applies_regMem, regMemRank, if_neg hrm]
    rfl
  | movRegRmMod00 w reg rm =>
    have hrm : rm ≠ 0b110#3 := by simpa [WellFormed, Instr.wellFormed] using hwf
    cases henc
    rw [filter_applies_regMem, regMemRank, if_neg hrm]
    rfl
  | _ => cases henc; rw [filter_applies_regMem]; rfl

/-- Two bytes at least are the encoding of every row but the catch-all. -/
theorem exists_encode_eq_cons_cons (i : Instr) (h : Machine.bitFields i ≠ none) :
    ∃ b0 b1 tail, encode i = b0 :: b1 :: tail := by
  cases i with
  | unsupported b => exact absurd rfl h
  | _ => exact ⟨_, _, _, rfl⟩

/-- Settles O7: the bytes are the instruction's encoding, whose byte 0 selects the family and byte 1 the row in it. -/
theorem opcodeTableSelectsOneRow : Obligations.OpcodeTableSelectsOneRow := by
  intro b0 b1 lo hi
  obtain ⟨i, hd⟩ := decode_total [b0, b1, lo, hi] (by simp)
  refine ⟨i, hd, ?_⟩
  obtain ⟨hwf, rest, hbytes⟩ := beginsWith_of_decode _ i hd
  split
  · next hc => rw [filter_applies_unsupported b0 b1 hc, List.map_nil]
  · next hc =>
    have hsome : Machine.bitFields i ≠ none := by
      intro hnone
      obtain ⟨b, rfl⟩ := (Machine.bitFields_eq_none_iff i).mp hnone
      exact hc (Machine.classify_of_decode_unsupported b0 b _ hd)
    obtain ⟨c0, c1, tail, henc⟩ := exists_encode_eq_cons_cons i hsome
    obtain ⟨rfl, rfl, -⟩ : b0 = c0 ∧ b1 = c1 ∧ _ := by simpa [henc] using hbytes
    exact row_of_encode i b0 b1 tail hwf henc

end Sys2Proof


namespace Sys2Proof.Machine

/-! ## The step is the meaning of the four bytes from the cursor on -/

theorem slice_four_eq_window_append (s : State) : ∃ more, s.buf.slice s.offset 4 = s.window ++ more := by
  refine ⟨s.buf.slice (s.offset + min 4 (s.len - s.offset)) (4 - min 4 (s.len - s.offset)), ?_⟩
  rw [window_eq_slice, ← Memory.slice_append, Nat.add_sub_cancel' (Nat.min_le_left _ _)]

/-- Bytes at or beyond `LEN` take no part: where they would complete an instruction, its own bound checks raise what the
decoder answers without them. -/
theorem step_eq_exec_of_slice (s : State) (i : Instr) (hr : s.running)
    (hd : decode (s.buf.slice s.offset 4) = .instr i) : step s = exec i s := by
  obtain ⟨more, hmore⟩ := slice_four_eq_window_append s
  rw [hmore] at hd
  rw [step_of_running s hr]
  cases hw : decode s.window with
  | instr j =>
    have hj := decode_append_of_instr s.window more j hw
    rw [hd] at hj
    cases hj
    rfl
  | truncated seen needed =>
    obtain ⟨f, hf, hneeded⟩ := ((decode_truncated_iff _ _ _).mp hw).needed_eq more i hd
    obtain ⟨-, -, hshort, hle⟩ := decode_truncated_bounds _ _ _ hw
    have hpre := f.prefixLength_le_length
    rw [length_window] at hshort hneeded
    have hlen : s.len < s.offset + f.length := by split at hneeded <;> omega
    rw [exec_of_bitFields i f hf, transition_of_short f s hr hlen, hneeded]
    have hiff : s.len < s.offset + f.prefixLength ↔ min 4 (s.len - s.offset) < f.prefixLength := by
      have := f.length_le
      have := f.two_le_prefixLength
      have := hr.2
      omega
    simp only [hiff, raise]
  | noByte =>
    rw [decode_noByte_iff, window_of_running s hr] at hw
    cases hw

/-- The value of the immediate form with width `w`, of which `lo` is the first byte and `hi` the second
(30_encoding.md R49). -/
def immediateValue (w : Width) (lo hi : Byte) : Int :=
  match w with
  | .byte => lo.toInt
  | .word => (littleEndian lo hi).toInt

/-- The record that the three bytes of the immediate form give. -/
def immediateFields (b0 lo hi : Byte) : BitFields :=
  .immediate (immWidth b0) (immReg b0) (immediateValue (immWidth b0) lo hi)

theorem decode_immediateFields (b0 lo hi : Byte) (rest : List Byte) (hc : classify b0 = .immediateToRegister) :
    ∃ i, decode (b0 :: lo :: hi :: rest) = .instr i ∧ bitFields i = some (immediateFields b0 lo hi) := by
  simp only [decode_immediate b0 _ hc, decodeImmediate, immediateFields]
  cases immWidth b0 with
  | byte => exact ⟨_, rfl, rfl⟩
  | word => exact ⟨_, rfl, rfl⟩

theorem step_of_immediate (s : State) (hr : s.running) (hc : classify (s.buf.read s.offset) = .immediateToRegister) :
    step s = transition
      (immediateFields (s.buf.read s.offset) (s.buf.read (s.offset + 1)) (s.buf.read (s.offset + 2))) s := by
  obtain ⟨i, hd, hf⟩ := decode_immediateFields (s.buf.read s.offset) (s.buf.read (s.offset + 1))
    (s.buf.read (s.offset + 2)) [s.buf.read (s.offset + 3)] hc
  rw [step_eq_exec_of_slice s i hr hd, exec_of_bitFields i _ hf]

theorem step_of_regMem (s : State) (hr : s.running) (hc : classify (s.buf.read s.offset) = .regMemToFromRegister) :
    step s = transition (regMemFields (s.buf.read s.offset) (s.buf.read (s.offset + 1)) (s.buf.read (s.offset + 2))
      (s.buf.read (s.offset + 3))) s := by
  obtain ⟨i, hd, hf⟩ := decode_regMemFields (s.buf.read s.offset) (s.buf.read (s.offset + 1))
    (s.buf.read (s.offset + 2)) (s.buf.read (s.offset + 3)) [] hc
  rw [step_eq_exec_of_slice s i hr hd, exec_of_bitFields i _ hf]

/-! ## The pseudocode (10_state.md R20, 40_mov_immediate_to_register.md R67, 41_mov_regmem_to_from_register.md R70) -/

theorem regText_toNat (reg : RegIndex) (w : Width) : Pseudocode.regText reg.toNat w.bit.toNat = registerTable reg w := by
  rw [Pseudocode.regText, BitVec.ofNat_toNat, BitVec.setWidth_eq]
  cases w <;> rfl

theorem memBaseText_toNat (rm : RegIndex) (disp : Int) : Pseudocode.memBaseText rm.toNat disp = memText rm disp := by
  rw [Pseudocode.memBaseText, BitVec.ofNat_toNat, BitVec.setWidth_eq]
  rcases lt_trichotomy disp 0 with h | rfl | h
  · rw [memText_of_neg rm disp h, if_neg h.ne, if_neg h.not_gt]
    simp only [String.append_assoc]
  · rw [memText_zero, if_pos rfl, String.append_empty]
  · rw [memText_of_pos rm disp h, if_neg h.ne', if_pos h]
    simp only [String.append_assoc]

theorem immediateValue_eq (w : Width) (lo hi : Byte) : immediateValue w lo hi =
    if w.bit.toNat = 0 then Pseudocode.sextByte lo.toNat else Pseudocode.sextHalf (lo.toNat + 256 * hi.toNat) := by
  rw [sextByte_toNat, sextHalf_littleEndian]
  cases w <;> rfl

theorem displacement_eq (n : Nat) (lo hi : Byte) : displacement n lo hi =
    if n = 0 then 0 else if n = 1 then Pseudocode.sextByte lo.toNat
    else Pseudocode.sextHalf (lo.toNat + 256 * hi.toNat) := by
  rw [sextByte_toNat, sextHalf_littleEndian, displacement]

/-- A transition of the record, in the pseudocode's words. -/
theorem transition_eq_pseudocode (f : BitFields) (s : State) (hr : s.running) : transition f s =
    if s.offset + f.prefixLength > s.len then Pseudocode.truncated s f.prefixLength
    else if s.offset + f.length > s.len then Pseudocode.truncated s f.length
    else Pseudocode.finish s f.length f.dest.text f.src.text :=
  whenRunning_of_running s _ hr

theorem immediateToRegister_eq_transition (s : State) (hr : s.running) :
    Pseudocode.immediateToRegister s (s.buf.read s.offset).toNat = transition
      (immediateFields (s.buf.read s.offset) (s.buf.read (s.offset + 1)) (s.buf.read (s.offset + 2))) s := by
  simp only [Pseudocode.immediateToRegister, transition_eq_pseudocode _ s hr, immediateFields, immediateValue_eq,
    BitFields.prefixLength, BitFields.length, BitFields.dest_immediate, BitFields.src_immediate, Operand.text_reg,
    Operand.text_imm, widthNumber_eq_bit, ← immWidth_bit_toNat, ← immReg_toNat, regText_toNat, Pseudocode.byteAt,
    Pseudocode.halfAt]
  split <;> rfl

/-- The text of the RM side, by the fields as numbers. -/
theorem rmSide_text (b1 : Byte) (w : Width) (disp : Int) : (rmSide (modField b1) (rmField b1) w disp).text =
    if b1.toNat / 64 = 3 then Pseudocode.regText (b1.toNat % 8) w.bit.toNat
    else if b1.toNat / 64 = 0 ∧ b1.toNat % 8 = 6 then "[" ++ decText disp ++ "]"
    else Pseudocode.memBaseText (b1.toNat % 8) disp := by
  have hdirect : (rmField b1).toNat = 6 ↔ rmField b1 = 0b110#3 := BitVec.toNat_inj (y := 0b110#3)
  rw [← modField_bits_toNat, ← rmField_toNat, regText_toNat, memBaseText_toNat]
  simp only [hdirect]
  cases modField b1 with
  | mod00 =>
    by_cases hrm : rmField b1 = 0b110#3
    · simp [hrm, Mod.bits]
    · simp [hrm, Mod.bits, rmSide_mod00_of_ne]
  | mod01 => rfl
  | mod10 => rfl
  | mod11 => rfl

theorem regMemToFromRegister_eq_transition (s : State) (hr : s.running) :
    Pseudocode.regMemToFromRegister s (s.buf.read s.offset).toNat = transition (regMemFields (s.buf.read s.offset)
      (s.buf.read (s.offset + 1)) (s.buf.read (s.offset + 2)) (s.buf.read (s.offset + 3))) s := by
  simp only [Pseudocode.regMemToFromRegister, transition_eq_pseudocode _ s hr, regMemFields, displacement_eq,
    BitFields.prefixLength, BitFields.length, dispLen_fields, ← rmDirection_bit_toNat, ← rmWidth_bit_toNat,
    Pseudocode.byteAt, Pseudocode.halfAt, ← regField_toNat, regText_toNat]
  cases rmDirection (s.buf.read s.offset) with
  | toRm => simp only [BitFields.dest_toRm, BitFields.src_toRm, Operand.text_reg, rmSide_text]; rfl
  | toReg => simp only [BitFields.dest_toReg, BitFields.src_toReg, Operand.text_reg, rmSide_text]; rfl

theorem stepEnabled_of_topFour (s : State) (h : (s.buf.read s.offset).toNat / 16 = 0b1011) :
    Pseudocode.stepEnabled s = Pseudocode.immediateToRegister s (s.buf.read s.offset).toNat := if_pos h

theorem stepEnabled_of_topSix (s : State) (hfour : (s.buf.read s.offset).toNat / 16 ≠ 0b1011)
    (h : (s.buf.read s.offset).toNat / 4 = 0b100010) :
    Pseudocode.stepEnabled s = Pseudocode.regMemToFromRegister s (s.buf.read s.offset).toNat :=
  (if_neg hfour).trans (if_pos h)

theorem stepEnabled_of_neither (s : State) (hfour : (s.buf.read s.offset).toNat / 16 ≠ 0b1011)
    (hsix : (s.buf.read s.offset).toNat / 4 ≠ 0b100010) :
    Pseudocode.stepEnabled s = .next (s.setErr (.unsupportedOpcode s.offset (s.buf.read s.offset))) := by
  have hbyte : BitVec.ofNat 8 (Pseudocode.byteAt s s.offset) = s.buf.read s.offset := by
    rw [Pseudocode.byteAt, BitVec.ofNat_toNat, BitVec.setWidth_eq]
  refine ((if_neg hfour).trans (if_neg hsix)).trans ?_
  rw [hbyte]
  rfl

/-- When running, the step is the pseudocode: the classifier's three verdicts are its three branches. -/
theorem step_eq_stepEnabled (s : State) (hr : s.running) : step s = Pseudocode.stepEnabled s := by
  have hverdict := classify_eq (s.buf.read s.offset)
  split at hverdict
  · next hfour =>
    rw [step_of_immediate s hr hverdict, stepEnabled_of_topFour s hfour, immediateToRegister_eq_transition s hr]
  · next hfour =>
    split at hverdict
    · next hsix =>
      rw [step_of_regMem s hr hverdict, stepEnabled_of_topSix s hfour hsix, regMemToFromRegister_eq_transition s hr]
    · next hsix => rw [step_of_unsupported s hr hverdict, stepEnabled_of_neither s hfour hsix]

/-- Settles O24: in a running state by the verdict on byte 0, elsewhere by the enabling guard. -/
theorem stepIsThePseudocode : Obligations.StepIsThePseudocode := fun s =>
  ⟨step_eq_stepEnabled s, fun hstop t hstep => hstop (step_next s t hstep).1⟩

/-! ## The cases of a truncated instruction (60_exceptions.md R102) -/

/-- The first bound check fails. -/
theorem transition_of_short_prefix (f : BitFields) (s : State) (hr : s.running)
    (hshort : s.len < s.offset + f.prefixLength) :
    transition f s = .next (s.setErr (.truncatedInstruction s.offset f.prefixLength (s.len - s.offset))) :=
  (whenRunning_of_running s _ hr).trans (requireBytes_of_short _ s _ hshort)

/-- The first bound check passes and the second fails. -/
theorem transition_of_short_length (f : BitFields) (s : State) (hr : s.running)
    (hpre : s.offset + f.prefixLength ≤ s.len) (hshort : s.len < s.offset + f.length) :
    transition f s = .next (s.setErr (.truncatedInstruction s.offset f.length (s.len - s.offset))) :=
  (whenRunning_of_running s _ hr).trans
    ((requireBytes_of_fits _ s _ hpre).trans (requireBytes_of_short _ s _ hshort))

theorem step_short_immediate (s : State) (hr : s.running) (hc : classify (s.buf.read s.offset) = .immediateToRegister)
    (hshort : s.len < s.offset + (2 + (s.buf.read s.offset).toNat / 8 % 2)) :
    step s = .next (s.setErr (.truncatedInstruction s.offset (2 + (s.buf.read s.offset).toNat / 8 % 2)
      (s.len - s.offset))) := by
  rw [← immWidth_bit_toNat, ← widthNumber_eq_bit] at hshort ⊢
  exact (step_of_immediate s hr hc).trans (transition_of_short_prefix _ s hr hshort)

theorem step_short_byte1 (s : State) (hr : s.running) (hc : classify (s.buf.read s.offset) = .regMemToFromRegister)
    (hshort : s.len < s.offset + 2) :
    step s = .next (s.setErr (.truncatedInstruction s.offset 2 (s.len - s.offset))) :=
  (step_of_regMem s hr hc).trans (transition_of_short_prefix _ s hr hshort)

theorem step_short_displacement (s : State) (n : Nat) (hr : s.running)
    (hc : classify (s.buf.read s.offset) = .regMemToFromRegister)
    (hn : Pseudocode.dispLength ((s.buf.read (s.offset + 1)).toNat / 64) ((s.buf.read (s.offset + 1)).toNat % 8) = n)
    (hpre : s.offset + 2 ≤ s.len) (hshort : s.len < s.offset + (2 + n)) :
    step s = .next (s.setErr (.truncatedInstruction s.offset (2 + n) (s.len - s.offset))) := by
  rw [← hn, ← dispLen_fields] at hshort ⊢
  exact (step_of_regMem s hr hc).trans (transition_of_short_length _ s hr hpre hshort)

/-- Settles O27: the first failing bound check, which is the immediate form's only one, the one for byte 1, or the one for
the displacement bytes that byte 1 asks for. -/
theorem truncationCases : Obligations.TruncationCases := by
  intro s hr b0 b1 available raised
  have hlt := hr.2
  refine ⟨fun h hav => ?_, fun h hav => ?_, fun h hav => ?_, fun h hmod hav => ?_, fun h hmod hav => ?_⟩
  · have hw : (s.buf.read s.offset).toNat / 8 % 2 = 0 := by omega
    have hstep := step_short_immediate s hr (classify_of_topFour _ (by omega)) (by omega)
    rwa [hw] at hstep
  · have hw : (s.buf.read s.offset).toNat / 8 % 2 = 1 := by omega
    have hstep := step_short_immediate s hr (classify_of_topFour _ (by omega)) (by omega)
    rwa [hw] at hstep
  · exact step_short_byte1 s hr (classify_of_topSix _ h) (by omega)
  · have hn : Pseudocode.dispLength (b1 / 64) (b1 % 8) = 1 := by rw [hmod]; rfl
    exact step_short_displacement s 1 hr (classify_of_topSix _ h) hn (by omega) (by omega)
  · have hn : Pseudocode.dispLength (b1 / 64) (b1 % 8) = 2 := by
      rcases hmod with hmod | ⟨hmod, hrm⟩
      · rw [hmod]; rfl
      · rw [hmod, hrm]; rfl
    exact step_short_displacement s 2 hr (classify_of_topSix _ h) hn (by omega) (by omega)

end Sys2Proof.Machine


namespace Sys2Proof.Machine

/-! ## The step's three outcomes -/

/-- What a running state can step to: a line and an advance for an instruction whose bytes are all present, or an error
record for an unsupported byte or for missing bytes (10_state.md R20, 60_exceptions.md R101, R102). -/
inductive StepResult (s : State) : State → Prop where
  | line (i : Instr) (f : BitFields) (hd : decode s.window = .instr i) (hf : bitFields i = some f)
      (hfits : s.offset + f.length ≤ s.len) :
      StepResult s { s with out := s.out ++ [lineText f.dest f.src], offset := s.offset + f.length }
  | unsupported (b : Byte) (hd : decode s.window = .instr (.unsupported b)) :
      StepResult s (s.setErr (.unsupportedOpcode s.offset b))
  | truncated (seen needed : Nat) (hd : decode s.window = .truncated seen needed) :
      StepResult s (s.setErr (.truncatedInstruction s.offset needed (s.len - s.offset)))

theorem BitFields.two_le_length (f : BitFields) : 2 ≤ f.length :=
  f.two_le_prefixLength.trans f.prefixLength_le_length

/-- The bytes of a decoded instruction are inside the buffer. -/
theorem fits_of_decode_window (s : State) (i : Instr) (f : BitFields) (hd : decode s.window = .instr i)
    (hf : bitFields i = some f) : s.offset + f.length ≤ s.len := by
  have hle := length_encode_le_of_decode _ i hd
  rw [length_encode_of_decode _ i f hd hf, length_window] at hle
  have := f.two_le_length
  omega

/-- A running state makes a transition. -/
theorem exists_stepResult (s : State) (hr : s.running) : ∃ t, step s = .next t ∧ StepResult s t := by
  rw [step_of_running s hr]
  cases hd : decode s.window with
  | instr i =>
    cases hf : bitFields i with
    | some f =>
      have hfits := fits_of_decode_window s i f hd hf
      exact ⟨_, (exec_of_bitFields i f hf s).trans (transition_of_fits f s hr hfits), .line i f hd hf hfits⟩
    | none =>
      obtain ⟨b, rfl⟩ := (bitFields_eq_none_iff i).mp hf
      exact ⟨_, whenRunning_of_running s _ hr, .unsupported b hd⟩
  | truncated seen needed => exact ⟨_, rfl, .truncated seen needed hd⟩
  | noByte =>
    rw [decode_noByte_iff, window_of_running s hr] at hd
    cases hd

theorem stepResult_of_step (s t : State) (h : step s = .next t) : s.running ∧ StepResult s t := by
  have hr := (step_next s t h).1
  obtain ⟨t', h', ht'⟩ := exists_stepResult s hr
  rw [h] at h'
  cases h'
  exact ⟨hr, ht'⟩

/-- Settles O28: a line leaves the error record of the running state, which is `none`. -/
theorem raiseWritesOnlyTheErrorRecord : Obligations.RaiseWritesOnlyTheErrorRecord := by
  intro s t h herr
  obtain ⟨hr, hres⟩ := stepResult_of_step s t h
  cases hres with
  | line i f hd hf hfits => exact absurd hr.1 herr
  | unsupported b hd => exact ⟨rfl, hr.1⟩
  | truncated seen needed hd => exact ⟨rfl, hr.1⟩

/-- Settles O29: of the step's three outcomes the first alone appends, and it leaves no error. -/
theorem outputIsAppendOnly : Obligations.OutputIsAppendOnly := by
  intro s t h
  obtain ⟨hr, hres⟩ := stepResult_of_step s t h
  cases hres with
  | line i f hd hf hfits => exact ⟨fun _ => ⟨_, rfl⟩, fun herr => absurd hr.1 herr⟩
  | unsupported b hd => exact ⟨fun hok => by simp at hok, fun _ => rfl⟩
  | truncated seen needed hd => exact ⟨fun hok => by simp at hok, fun _ => rfl⟩

/-- Settles O30: the record's length is 2 to 4, and its bytes are inside the buffer. -/
theorem cursorBoundedAndMonotone : Obligations.CursorBoundedAndMonotone := by
  intro s t h
  obtain ⟨hr, hres⟩ := stepResult_of_step s t h
  have hlt := hr.2
  cases hres with
  | line i f hd hf hfits =>
    have h2 := f.two_le_length
    have h4 := f.length_le
    exact ⟨hfits, Nat.le_add_right _ _, fun _ => ⟨Nat.add_le_add_left h2 _, Nat.add_le_add_left h4 _⟩,
      fun herr => absurd hr.1 herr⟩
  | unsupported b hd => exact ⟨hlt.le, le_rfl, fun hok => by simp at hok, fun _ => rfl⟩
  | truncated seen needed hd => exact ⟨hlt.le, le_rfl, fun hok => by simp at hok, fun _ => rfl⟩

/-! ## The interface (70_reset_and_hazards.md R128) -/

theorem insEvent_of_instr {s : State} {i : Instr} (hr : s.running) (hd : decode s.window = .instr i) :
    insEvent s = (bitFields i).map BitFields.event := by
  rw [insEvent, if_pos hr, hd]

theorem insEvent_of_truncated {s : State} {seen needed : Nat} (hr : s.running)
    (hd : decode s.window = .truncated seen needed) : insEvent s = none := by
  rw [insEvent, if_pos hr, hd]

/-- The event's line is the record's line. -/
theorem event_line (f : BitFields) : f.event.line = lineText f.dest f.src := rfl

/-- Settles O31: the event is there in exactly the first of the step's outcomes. -/
theorem insEventTellsTheTransition : Obligations.InsEventTellsTheTransition := by
  intro s hr
  obtain ⟨t, hstep, hres⟩ := exists_stepResult s hr
  rw [hstep]
  cases hres with
  | line i f hd hf hfits =>
    have hevent : insEvent s = some f.event := by rw [insEvent_of_instr hr hd, hf, Option.map_some]
    rw [hevent]
    refine ⟨fun e he => ?_, fun hnone => (nomatch hnone)⟩
    cases he
    rw [event_line]
    rfl
  | unsupported b hd =>
    have hevent : insEvent s = none := insEvent_of_instr hr hd
    rw [hevent]
    exact ⟨fun _ he => (nomatch he), fun _ => ⟨_, rfl⟩⟩
  | truncated seen needed hd =>
    rw [insEvent_of_truncated hr hd]
    exact ⟨fun _ he => (nomatch he), fun _ => ⟨_, rfl⟩⟩

/-! ## The reads of a transition (20_memory.md R44) -/

theorem bufReads_of_running (s : State) (hr : s.running) :
    bufReads s = List.range' s.offset (bytesRead (decode s.window)) := if_pos hr

theorem bufReads_of_not_running (s : State) (hr : ¬ s.running) : bufReads s = [] := if_neg hr

/-- Settles O11: the reads are a range from the cursor, of as many indices as bytes of the window were read. -/
theorem readsStayInsideTheBuffer : Obligations.ReadsStayInsideTheBuffer := by
  intro s
  by_cases hr : s.running
  · have hle := bytesRead_le_length s.window
    have hpos := bytesRead_pos s.window (by rw [window_of_running s hr]; simp)
    rw [length_window] at hle
    rw [bufReads_of_running s hr]
    refine ⟨fun a ha => ?_, List.pairwise_lt_range', ?_, fun _ => ?_⟩
    · rw [List.mem_range'_1] at ha
      omega
    · rw [List.length_range']
      omega
    · rw [List.head?_range', if_neg (by omega)]
  · rw [bufReads_of_not_running s hr]
    exact ⟨by simp, .nil, by simp, fun h => absurd h hr⟩

/-! ## Another buffer with the same bytes at the indices read -/

/-- An outcome with another buffer in its next state. -/
def withBuf (other : Memory) (o : Outcome) : Outcome :=
  match o with
  | .next t => .next { t with buf := other }
  | .fault f => .fault f
  | .refused r => .refused r

theorem withBuf_whenRunning (other : Memory) (s : State) (k : Outcome) :
    withBuf other (whenRunning s k) = whenRunning { s with buf := other } (withBuf other k) := by
  unfold whenRunning
  simp only [apply_ite (withBuf other)]
  rfl

theorem withBuf_requireBytes (other : Memory) (needed : Nat) (s : State) (k : Outcome) :
    withBuf other (requireBytes needed s k) = requireBytes needed { s with buf := other } (withBuf other k) := by
  unfold requireBytes
  rw [apply_ite (withBuf other)]
  rfl

/-- No meaning looks at the buffer. -/
theorem withBuf_exec (other : Memory) (i : Instr) (s : State) :
    withBuf other (exec i s) = exec i { s with buf := other } := by
  cases hf : bitFields i with
  | some f =>
    rw [exec_of_bitFields i f hf, exec_of_bitFields i f hf, transition, withBuf_whenRunning, withBuf_requireBytes,
      withBuf_requireBytes]
    rfl
  | none =>
    obtain ⟨b, rfl⟩ := (bitFields_eq_none_iff i).mp hf
    exact withBuf_whenRunning other s _

theorem Memory.slice_congr (m m' : Memory) (a n : Nat) (h : ∀ k, a ≤ k → k < a + n → m'.read k = m.read k) :
    m'.slice a n = m.slice a n := by
  refine List.ext_getElem (by simp) fun k h1 h2 => ?_
  rw [getElem_slice, getElem_slice]
  exact h _ (by omega) (by simp at h1; omega)

theorem Memory.take_slice (m : Memory) (a n k : Nat) (h : k ≤ n) : (m.slice a n).take k = m.slice a k := by
  obtain ⟨j, rfl⟩ := Nat.exists_eq_add_of_le h
  rw [slice_append, List.take_left' (length_slice m a k)]

theorem decode_window_withBuf (s : State) (other : Memory) (hr : s.running)
    (h : ∀ a ∈ bufReads s, other.read a = s.buf.read a) :
    decode (State.window { s with buf := other }) = decode s.window := by
  have hle := bytesRead_le_length s.window
  rw [length_window] at hle
  refine decode_congr _ _ (by simp) ?_
  generalize hn : bytesRead (decode s.window) = n at hle
  rw [window_eq_slice, window_eq_slice, Memory.take_slice _ _ _ _ hle, Memory.take_slice _ _ _ _ hle]
  refine Memory.slice_congr _ _ _ _ fun k hk hlt => h k ?_
  rw [bufReads_of_running s hr, hn, List.mem_range'_1]
  exact ⟨hk, hlt⟩

/-- Settles O12: the decoder's answer is the same, and its effect does not look at the buffer. -/
theorem stepDependsOnlyOnBytesRead : Obligations.StepDependsOnlyOnBytesRead := by
  intro s other h
  change step { s with buf := other } = withBuf other (step s)
  by_cases hr : s.running
  · have hr' : State.running { s with buf := other } := hr
    rw [step_of_running _ hr', step_of_running s hr, decode_window_withBuf s other hr h]
    cases decode s.window with
    | instr i => exact (withBuf_exec other i s).symm
    | truncated seen needed => rfl
    | noByte => rfl
  · rw [step, step, withBuf_whenRunning]
    exact whenRunning_of_not_running _ _ _ hr

end Sys2Proof.Machine


namespace Sys2Proof.Machine

/-! ## Reset and status -/

theorem nil_wf : Memory.wf [] := ⟨.nil, by simp⟩

/-- Settles O10: bytes placed from address 0 on read back at their places. -/
theorem resetBufferReadsCallersBytes : Obligations.ResetBufferReadsCallersBytes := by
  refine fun bytes => ⟨rfl, fun k h => ?_⟩
  rw [resetWith_buf, Memory.read_writeBytes bytes [] nil_wf, dif_pos ⟨Nat.zero_le k, h⟩]
  rfl

/-- Settles O13: the status after reset is that of cursor 0 and the count of the bytes. -/
theorem resetValues : Obligations.ResetValues := by
  refine ⟨fun s bytes => ⟨rfl, rfl, rfl, rfl, fun h => ⟨rfl, ?_⟩, fun h => ⟨rfl, ?_⟩⟩, rfl⟩
  · exact List.length_pos_iff.mpr h
  · rw [h]
    rfl

/-- Settles O14: by the error record, then by the cursor. -/
theorem exactlyOneStatusHolds : Obligations.ExactlyOneStatusHolds := by
  intro s hle
  by_cases herr : s.err = none
  · rcases hle.lt_or_eq with hlt | heq
    · exact .inl ⟨⟨herr, hlt⟩, fun h => hlt.ne h.2, fun h => h herr⟩
    · exact .inr (.inl ⟨fun h => h.2.ne heq, ⟨herr, heq⟩, fun h => h herr⟩)
  · exact .inr (.inr ⟨fun h => herr h.1, fun h => herr h.1, herr⟩)

/-- Every meaning stands behind the enabling guard. -/
theorem exec_eq_whenRunning (i : Instr) (s : State) : ∃ k, exec i s = whenRunning s k := by
  cases hf : bitFields i with
  | some f => exact ⟨_, exec_of_bitFields i f hf s⟩
  | none =>
    obtain ⟨b, rfl⟩ := (bitFields_eq_none_iff i).mp hf
    exact ⟨_, exec_unsupported b s⟩

/-- Settles O15: the guard's two stops, of the step and of every meaning. -/
theorem noTransitionUnlessRunning : Obligations.NoTransitionUnlessRunning := by
  intro i s
  obtain ⟨k, hk⟩ := exec_eq_whenRunning i s
  rw [hk, step]
  exact ⟨fun h => ⟨whenRunning_of_failed s _ h, whenRunning_of_failed s _ h⟩,
    fun h => ⟨whenRunning_of_done s _ h, whenRunning_of_done s _ h⟩⟩

/-! ## What each instruction does -/

theorem exec_line {i : Instr} {f : BitFields} {s : State} {n : Nat} {line : String} (hf : bitFields i = some f)
    (hr : s.running) (hlength : f.length = n) (hline : lineText f.dest f.src = line) (hfits : s.offset + n ≤ s.len) :
    exec i s = .next { s with out := s.out ++ [line], offset := s.offset + n } := by
  subst hlength hline
  exact (exec_of_bitFields i f hf s).trans (transition_of_fits f s hr hfits)

/-- Settles O16: the two records' texts and lengths. -/
theorem immediateFormsAppendTheirLine : Obligations.ImmediateFormsAppendTheirLine := fun _ _ _ _ hr =>
  ⟨fun hfits => exec_line rfl hr rfl rfl hfits,
    fun hfits => exec_line rfl hr rfl rfl hfits⟩

/-- A bracketed operand as the destination of a line. -/
theorem lineText_bracketed_dest (dest src : Operand) (t : String) (hdest : dest.text = "[" ++ t ++ "]") :
    lineText dest src = "mov [" ++ t ++ "], " ++ src.text := by
  have hopen : "mov " ++ "[" = "mov [" := by decide
  have hclose : "]" ++ ", " = "], " := by decide
  rw [lineText, hdest, ← hopen, ← hclose]
  simp only [String.append_assoc]

/-- A bracketed operand as the source of a line. -/
theorem lineText_bracketed_src (dest src : Operand) (t : String) (hsrc : src.text = "[" ++ t ++ "]") :
    lineText dest src = "mov " ++ dest.text ++ ", [" ++ t ++ "]" := by
  have hopen : ", " ++ "[" = ", [" := by decide
  rw [lineText, hsrc, ← hopen]
  simp only [String.append_assoc]

/-- The text of a base without displacement. -/
theorem rmSide_mod00_text (rm : RegIndex) (w : Width) (h : rm ≠ 0b110#3) :
    (rmSide .mod00 rm w 0).text = "[" ++ effectiveAddressTable rm ++ "]" := by
  rw [rmSide_mod00_of_ne rm w 0 h, Operand.text_memBase, memText_zero]

theorem length_mod00_of_ne (d : Direction) (w : Width) (reg rm : RegIndex) (disp : Int) (h : rm ≠ 0b110#3) :
    (BitFields.regMem d w .mod00 reg rm disp).length = 2 := by
  rw [BitFields.length, dispLen, if_neg h]

/-- Settles O17: the five records' lengths and texts, the RM side being the destination. -/
theorem registerToRmFormsAppendTheirLine : Obligations.RegisterToRmFormsAppendTheirLine := fun w reg rm _ _ _ hr =>
  ⟨fun hfits => exec_line rfl hr rfl rfl hfits,
    fun hrm hfits => exec_line rfl hr (length_mod00_of_ne .toRm w reg rm 0 hrm)
      (lineText_bracketed_dest _ _ _ (rmSide_mod00_text rm w hrm)) hfits,
    fun hfits => exec_line rfl hr rfl (lineText_bracketed_dest _ _ _ rfl) hfits,
    fun hfits => exec_line rfl hr rfl rfl hfits,
    fun hfits => exec_line rfl hr rfl rfl hfits⟩

/-- Settles O18: the five records' lengths and texts, the RM side being the source. -/
theorem rmToRegisterFormsAppendTheirLine : Obligations.RmToRegisterFormsAppendTheirLine := fun w reg rm _ _ _ hr =>
  ⟨fun hfits => exec_line rfl hr rfl rfl hfits,
    fun hrm hfits => exec_line rfl hr (length_mod00_of_ne .toReg w reg rm 0 hrm)
      (lineText_bracketed_src _ _ _ (rmSide_mod00_text rm w hrm)) hfits,
    fun hfits => exec_line rfl hr rfl (lineText_bracketed_src _ _ _ rfl) hfits,
    fun hfits => exec_line rfl hr rfl rfl hfits,
    fun hfits => exec_line rfl hr rfl rfl hfits⟩

/-- Settles O19: the guard passes, and the row's effect is to raise. -/
theorem unsupportedWritesTheErrorRecord : Obligations.UnsupportedWritesTheErrorRecord := fun b s hr =>
  (exec_unsupported b s).trans (whenRunning_of_running s _ hr)

/-- Settles O20: one of the two bound checks fails, whichever of the record's lengths it is for. -/
theorem movPastTheEndIsTruncated : Obligations.MovPastTheEndIsTruncated := by
  rintro i s ⟨hwf, hsome⟩ hr hshort
  obtain ⟨f, hf⟩ := Option.ne_none_iff_exists'.mp hsome
  rw [length_encode_of_bitFields i f hwf hf] at hshort ⊢
  rw [exec_of_bitFields i f hf]
  have h2 := f.two_le_prefixLength
  have hpre := f.prefixLength_le_length
  by_cases hp : s.len < s.offset + f.prefixLength
  · exact ⟨f.prefixLength, h2, hpre, hp, transition_of_short_prefix f s hr hp⟩
  · exact ⟨f.length, h2.trans hpre, le_rfl, hshort, transition_of_short_length f s hr (by omega) hshort⟩

/-- Settles O21: what a supported instruction's meaning can answer is a line or a truncation. -/
theorem frameOfMovForms : Obligations.FrameOfMovForms := by
  rintro i s t ⟨hwf, hsome⟩ h
  obtain ⟨-, ⟨f, hf, -, rfl⟩ | ⟨f, needed, -, -, -, -, rfl⟩ | ⟨b, rfl, -⟩⟩ := exec_next i s t h
  · have hline : instrLine i = some (lineText f.dest f.src) := by rw [instrLine, hf]; rfl
    rw [length_encode_of_bitFields i f hwf hf]
    exact ⟨rfl, fun _ => rfl, rfl, .inl ⟨rfl, rfl, _, hline, rfl⟩⟩
  · exact ⟨rfl, fun _ => rfl, rfl, .inr ⟨by simp, rfl, rfl⟩⟩
  · exact absurd rfl hsome

/-- Settles O22: the catch-all row's meaning answers nothing but a raise. -/
theorem frameOfUnsupported : Obligations.FrameOfUnsupported := by
  intro b s t h
  obtain ⟨-, hraise⟩ := (whenRunning_eq_next s t _).mp h
  cases hraise
  exact ⟨rfl, rfl, rfl, fun _ => rfl, rfl⟩

/-! ## What the next step runs -/

/-- The step runs the instruction that the window decodes to. -/
theorem step_eq_exec_of_window (s : State) (i : Instr) (hr : s.running) (hd : decode s.window = .instr i) :
    step s = exec i s := by
  rw [step_of_running s hr, hd]

/-- Settles O23: the window decodes to the instruction whose encoding it begins with. -/
theorem stepRunsDecodedInstruction : Obligations.StepRunsDecodedInstruction := by
  intro s i rest hr hwf hwindow
  exact step_eq_exec_of_window s i hr (hwindow ▸ decode_encode_append i rest hwf)

theorem length_tableBytes (nbits w : Nat) : (tableBytes nbits w).length = 4 := by
  unfold tableBytes
  split <;> rfl

theorem decode_tableBytes (nbits w : Nat) (i : Instr) (h : decodeTableWord nbits w = some i) :
    decode (tableBytes nbits w) = .instr i := by
  unfold decodeTableWord at h
  split at h
  · next j hd => rw [hd, Option.some.inj h]
  · cases h
  · cases h

theorem withFetchWord_running (s : State) (nbits w : Nat) : (s.withFetchWord nbits w).running := by
  refine ⟨rfl, lt_of_lt_of_le ?_ (Nat.le_max_right _ _)⟩
  exact Nat.lt_add_of_pos_right (by decide)

/-- The four bytes placed are the window. -/
theorem window_withFetchWord (s : State) (nbits w : Nat) (hwf : s.buf.wf) :
    (s.withFetchWord nbits w).window = tableBytes nbits w := by
  have hlen : min 4 ((s.withFetchWord nbits w).len - (s.withFetchWord nbits w).offset) =
      (tableBytes nbits w).length := by
    rw [length_tableBytes]
    simp only [State.withFetchWord, Config.longestInstruction]
    omega
  rw [window_eq_slice, hlen]
  exact Memory.slice_writeBytes (tableBytes nbits w) s.buf hwf s.offset

/-- Settles O32: the window is the word's bytes. -/
theorem fetchWordIsRunNext : Obligations.FetchWordIsRunNext := by
  intro s nbits w i hwf h
  refine step_eq_exec_of_window _ i (withFetchWord_running s nbits w) ?_
  rw [window_withFetchWord s nbits w hwf]
  exact decode_tableBytes nbits w i h

end Sys2Proof.Machine


namespace Sys2Proof.Machine

/-! ## Decimal text (42_operand_resolution_and_formatting.md R90) -/

theorem decText_natCast (n : Nat) : decText n = natText n := decText_of_nonneg n (Int.natCast_nonneg n)

/-- Settles O37: the digits of a natural number, and the sign put before them. -/
theorem decTextIsTheDecimalNumeral : Obligations.DecTextIsTheDecimalNumeral := by
  refine ⟨fun n => ?_, fun n hn => ?_⟩
  · rw [decText_natCast]
    refine ⟨natText_isUnsigned n, ?_⟩
    rw [natText_toList]
    exact decimalDigits_value n n (lt_pow_succ_self n)
  · rw [decText_of_neg n hn, decText_abs]

/-- Settles O38: each text is an entry of a table or one of the cases of the memory text. -/
theorem sourceTestableTexts : Obligations.SourceTestableTexts := by
  refine ⟨rfl, rfl, by decide, by decide, fun rm w => ⟨memText_zero rm, ?_, ?_⟩, fun v w => rfl⟩
  · have hdec : decText 5 = "5" := by decide
    have hsuffix : " + " ++ "5" ++ "]" = " + 5]" := by decide
    change memText rm 5 = _
    rw [memText_of_pos rm 5 (by decide), hdec, ← hsuffix]
    simp only [String.append_assoc]
  · have hdec : decText |-5| = "5" := by decide
    have hsuffix : " - " ++ "5" ++ "]" = " - 5]" := by decide
    change memText rm (-5) = _
    rw [memText_of_neg rm (-5) (by decide), hdec, ← hsuffix]
    simp only [String.append_assoc]

/-! ## Different encodings of one line (30_encoding.md section 8) -/

theorem instrLine_eq {i : Instr} {f : BitFields} (hf : bitFields i = some f) :
    instrLine i = some (lineText f.dest f.src) := by
  rw [instrLine, hf]
  rfl

/-- Settles O40: equal operands on each side, the displacement's value being what counts and not its width. -/
theorem oneLineFromSeveralEncodings : Obligations.OneLineFromSeveralEncodings := by
  intro w a b
  refine ⟨rfl, fun hb => ?_, fun disp => ?_⟩
  · have hbase : rmSide .mod00 b w 0 = rmSide .mod01 b w (0x00#8).toInt := rmSide_mod00_of_ne b w 0 hb
    simp only [instrLine, bitFields, Option.map_some, BitFields.dest_toReg, BitFields.src_toReg, BitFields.dest_toRm,
      BitFields.src_toRm, hbase, and_self]
  · have hvalue : (disp.signExtend 16).toInt = disp.toInt := BitVec.toInt_signExtend_of_le (by decide)
    have hbase : rmSide .mod01 b w disp.toInt = rmSide .mod10 b w (disp.signExtend 16).toInt := by
      rw [hvalue, rmSide_mod01, rmSide_mod10]
    simp only [instrLine, bitFields, Option.map_some, BitFields.dest_toReg, BitFields.src_toReg, BitFields.dest_toRm,
      BitFields.src_toRm, hbase, and_self]

theorem rmByte0_toRm (w : Width) : rmByte0 .toRm w = BitVec.ofNat 8 (0x88 + w.bit.toNat) := by
  cases w <;> rfl

theorem rmByte0_toReg (w : Width) : rmByte0 .toReg w = BitVec.ofNat 8 (0x8A + w.bit.toNat) := by
  cases w <;> rfl

/-- The record of four bytes whose byte 0 is given by its fields. -/
theorem decode_rmByte0_fields (d : Direction) (w : Width) (b1 b2 b3 : Byte) :
    ∃ i, decode [rmByte0 d w, b1, b2, b3] = .instr i ∧ bitFields i = some (.regMem d w (modField b1) (regField b1)
      (rmField b1) (displacement (dispLen (modField b1) (rmField b1)) b2 b3)) := by
  simpa [regMemFields] using decode_regMemFields (rmByte0 d w) b1 b2 b3 [] (classify_rmByte0 d w)

/-- Settles O39: the two records differ in the direction alone. -/
theorem swappingDirectionSwapsOperands : Obligations.SwappingDirectionSwapsOperands := by
  intro w b1 b2 b3
  obtain ⟨i, hi, hf⟩ := decode_rmByte0_fields .toRm w b1 b2 b3
  obtain ⟨j, hj, hg⟩ := decode_rmByte0_fields .toReg w b1 b2 b3
  rw [rmByte0_toRm] at hi
  rw [rmByte0_toReg] at hj
  refine ⟨i, j, _, _, hi, hf, hj, hg, rfl, rfl, rfl, ?_⟩
  rw [ofNat_regField]
  rfl

/-! ## The grammar of the lines (42_operand_resolution_and_formatting.md R96) -/

theorem registerTable_isRegister (index : RegIndex) (w : Width) : isRegister (registerTable index w) := by
  unfold isRegister
  cases w <;> revert index <;> decide

theorem effectiveAddressTable_isBase (rm : RegIndex) : isBase (effectiveAddressTable rm) := by
  unfold isBase
  revert rm; decide

theorem memText_isMemory (rm : RegIndex) (disp : Int) : isMemory (memText rm disp) := by
  have hbase := effectiveAddressTable_isBase rm
  rcases lt_trichotomy disp 0 with h | rfl | h
  · rw [memText_of_neg rm disp h, decText_abs]
    exact .inr (.inr ⟨_, _, hbase, natText_isUnsigned _, .inr rfl⟩)
  · exact .inr (.inl ⟨_, hbase, memText_zero rm⟩)
  · rw [memText_of_pos rm disp h, decText_of_nonneg disp h.le]
    exact .inr (.inr ⟨_, _, hbase, natText_isUnsigned _, .inl rfl⟩)

/-- The RM side is a register or a memory operand. -/
theorem rmSide_text_isRegister_or_isMemory (mod : Mod) (rm : RegIndex) (w : Width) (disp : Int) :
    isRegister (rmSide mod rm w disp).text ∨ isMemory (rmSide mod rm w disp).text := by
  cases mod with
  | mod11 => exact .inl (registerTable_isRegister rm w)
  | mod01 => exact .inr (memText_isMemory rm disp)
  | mod10 => exact .inr (memText_isMemory rm disp)
  | mod00 =>
    by_cases hrm : rm = 0b110#3
    · subst hrm
      exact .inr (.inl ⟨_, decText_isNumber disp, rfl⟩)
    · rw [rmSide_mod00_of_ne rm w disp hrm]
      exact .inr (memText_isMemory rm disp)

/-- The line of every record is in the grammar. -/
theorem lineText_isLine (f : BitFields) : isLine (lineText f.dest f.src) := by
  cases f with
  | immediate w reg imm => exact ⟨_, _, rfl, .inl ⟨registerTable_isRegister reg w, decText_isNumber imm⟩⟩
  | regMem d w mod reg rm disp =>
    have hreg := registerTable_isRegister reg w
    cases d with
    | toReg =>
      rcases rmSide_text_isRegister_or_isMemory mod rm w disp with h | h
      · exact ⟨_, _, rfl, .inr (.inl ⟨hreg, h⟩)⟩
      · exact ⟨_, _, rfl, .inr (.inr (.inl ⟨hreg, h⟩))⟩
    | toRm =>
      rcases rmSide_text_isRegister_or_isMemory mod rm w disp with h | h
      · exact ⟨_, _, rfl, .inr (.inl ⟨h, hreg⟩)⟩
      · exact ⟨_, _, rfl, .inr (.inr (.inr ⟨h, hreg⟩))⟩

/-- Settles O41: the appended line is the line of a record. -/
theorem everyLineIsInTheGrammar : Obligations.EveryLineIsInTheGrammar := by
  intro s t h hok
  obtain ⟨-, hres⟩ := stepResult_of_step s t h
  cases hres with
  | line i f hd hf hfits => exact ⟨_, rfl, lineText_isLine f⟩
  | unsupported b hd => simp at hok
  | truncated seen needed hd => simp at hok

/-! ## The longest line (42_operand_resolution_and_formatting.md section 6) -/

/-- The number of a record: the immediate or the displacement. -/
def BitFields.value : BitFields → Int
  | .immediate _ _ imm => imm
  | .regMem _ _ _ _ _ disp => disp

theorem natAbs_toInt_le {w : Nat} (v : BitVec w) (hw : w ≤ 16) : v.toInt.natAbs ≤ 32768 := by
  have hlo := BitVec.le_two_mul_toInt (x := v)
  have hhi := BitVec.two_mul_toInt_lt (x := v)
  have hpow : (2 ^ w : Int) ≤ 65536 := by exact_mod_cast Nat.pow_le_pow_right (by decide) hw
  omega

/-- The number of an instruction's record is a signed 16-bit number. -/
theorem bitFields_value_le (i : Instr) (f : BitFields) (hf : bitFields i = some f) : f.value.natAbs ≤ 32768 := by
  cases i with
  | unsupported b => cases hf
  | movRmRegMod11 w reg rm => cases hf; exact Nat.zero_le _
  | movRmRegMod00 w reg rm => cases hf; exact Nat.zero_le _
  | movRegRmMod11 w reg rm => cases hf; exact Nat.zero_le _
  | movRegRmMod00 w reg rm => cases hf; exact Nat.zero_le _
  | _ => cases hf; exact natAbs_toInt_le _ (by decide)

theorem length_registerTable (index : RegIndex) (w : Width) : (registerTable index w).length = 2 := by
  cases w <;> revert index <;> decide

theorem length_effectiveAddressTable_le (rm : RegIndex) : (effectiveAddressTable rm).length ≤ 7 := by
  revert rm; decide

theorem length_natText_le_five (v : Int) (h : v.natAbs ≤ 32768) : (natText v.natAbs).length ≤ 5 :=
  length_natText_le _ 5 (by decide) (by omega)

theorem length_decText_le_six (v : Int) (h : v.natAbs ≤ 32768) : (decText v).length ≤ 6 := by
  have := length_natText_le_five v h
  unfold decText
  split
  · rw [String.length_append]
    change 1 + _ ≤ 6
    omega
  · omega

theorem length_memText_le (rm : RegIndex) (disp : Int) (h : disp.natAbs ≤ 32768) : (memText rm disp).length ≤ 17 := by
  have hbase := length_effectiveAddressTable_le rm
  have hnum := length_natText_le_five disp h
  have hbracket : "[".length = 1 ∧ "]".length = 1 ∧ " + ".length = 3 ∧ " - ".length = 3 := by decide
  rcases lt_trichotomy disp 0 with hn | rfl | hn
  · rw [memText_of_neg rm disp hn, decText_abs]
    simp only [String.length_append]
    omega
  · rw [memText_zero]
    simp only [String.length_append]
    omega
  · rw [memText_of_pos rm disp hn, decText_of_nonneg disp hn.le]
    simp only [String.length_append]
    omega

theorem length_rmSide_text_le (mod : Mod) (rm : RegIndex) (w : Width) (disp : Int) (h : disp.natAbs ≤ 32768) :
    (rmSide mod rm w disp).text.length ≤ 17 := by
  cases mod with
  | mod11 => exact (length_registerTable rm w).trans_le (by decide)
  | mod01 => exact length_memText_le rm disp h
  | mod10 => exact length_memText_le rm disp h
  | mod00 =>
    by_cases hrm : rm = 0b110#3
    · subst hrm
      have hnum := length_decText_le_six disp h
      have hbracket : "[".length = 1 ∧ "]".length = 1 := by decide
      rw [rmSide_mod00_direct, Operand.text_memDirect]
      simp only [String.length_append]
      omega
    · rw [rmSide_mod00_of_ne rm w disp hrm]
      exact length_memText_le rm disp h

theorem length_lineText (dest src : Operand) : (lineText dest src).length = 6 + dest.text.length + src.text.length := by
  have hparts : "mov ".length = 4 ∧ ", ".length = 2 := by decide
  rw [lineText]
  simp only [String.length_append]
  omega

/-- One operand is a register, whose name has two characters, and the other has at most 17. -/
theorem length_lineText_le (f : BitFields) (h : f.value.natAbs ≤ 32768) : (lineText f.dest f.src).length ≤ 25 := by
  rw [length_lineText]
  cases f with
  | immediate w reg imm =>
    have hreg := length_registerTable reg w
    have himm := length_decText_le_six imm h
    simp only [BitFields.dest_immediate, BitFields.src_immediate, Operand.text_reg, Operand.text_imm]
    omega
  | regMem d w mod reg rm disp =>
    have hreg := length_registerTable reg w
    have hrm := length_rmSide_text_le mod rm w disp h
    cases d with
    | toReg =>
      simp only [BitFields.dest_toReg, BitFields.src_toReg, Operand.text_reg]
      omega
    | toRm =>
      simp only [BitFields.dest_toRm, BitFields.src_toRm, Operand.text_reg]
      omega

/-- Settles O42: the bound of the two operands, and the line that meets it evaluated. -/
theorem longestLineHas25Characters : Obligations.LongestLineHas25Characters := by
  refine ⟨fun i line hline => ?_, by decide, by decide⟩
  obtain ⟨f, hf, rfl⟩ := Option.map_eq_some_iff.mp hline
  exact length_lineText_le f (bitFields_value_le i f hf)

/-! ## The serialised output (42_operand_resolution_and_formatting.md R94, R95) -/

theorem serialise_append_line (lines : List String) (line : String) :
    serialise (lines ++ [line]) = serialise lines ++ line ++ "\n" := by
  induction lines with
  | nil => simp [serialise]
  | cons first rest ih => simp [serialise, ih, String.append_assoc]

/-- Settles O43: by induction on the lines before the last. -/
theorem serialisedLinesEndInLineFeed : Obligations.SerialisedLinesEndInLineFeed :=
  ⟨fun _ => by rw [resetWith_out]; decide, serialise_append_line⟩

/-- Settles O4: eight words evaluated. -/
theorem decodeOfWrittenOutWords : Obligations.DecodeOfWrittenOutWords := by
  unfold Obligations.DecodeOfWrittenOutWords
  decide

end Sys2Proof.Machine


namespace Sys2Proof.Machine

/-! ## The invariant -/

theorem resetWith_inv (bytes : List Byte) : (State.resetWith bytes).Inv where
  cursor_le := Nat.zero_le _
  buf_wf := Memory.writeBytes_wf bytes [] nil_wf 0
  buf_bounded c hc := by
    rcases Memory.mem_writeBytes bytes [] 0 c hc with h | ⟨-, h⟩
    · cases h
    · simpa using h
  err_truthful := trivial
  scanned := ⟨[], by simp, rfl, rfl⟩

/-- Settles O44: nothing is scanned yet, and the buffer lists the bytes placed. -/
theorem resetSatisfiesTheInvariant : Obligations.ResetSatisfiesTheInvariant :=
  ⟨resetWith_inv [], resetWith_inv⟩

@[simp] theorem window_setErr (s : State) (e : DecodeError) : (s.setErr e).window = s.window := by
  rw [window_eq_slice, window_eq_slice]
  rfl

/-- The bytes from the cursor on, as many as the decoded instruction has, are its encoding. -/
theorem slice_eq_encode (s : State) (i : Instr) (hd : decode s.window = .instr i) :
    s.buf.slice s.offset (encode i).length = encode i := by
  obtain ⟨-, rest, hwindow⟩ := beginsWith_of_decode _ i hd
  have hle := length_encode_le_of_decode _ i hd
  rw [length_window] at hle
  rw [← Memory.take_slice s.buf s.offset _ _ hle, ← window_eq_slice, hwindow, List.take_left]

theorem supported_of_decode {bytes : List Byte} {i : Instr} {f : BitFields} (hd : decode bytes = .instr i)
    (hf : bitFields i = some f) : Supported i :=
  ⟨(beginsWith_of_decode bytes i hd).1, by simp [hf]⟩

/-- An instruction and its line join those before the cursor. -/
theorem scanned_line (s : State) (i : Instr) (f : BitFields) (hd : decode s.window = .instr i)
    (hf : bitFields i = some f) (h : s.Scanned) :
    State.Scanned { s with out := s.out ++ [lineText f.dest f.src], offset := s.offset + f.length } := by
  obtain ⟨program, hsup, hbytes, hout⟩ := h
  refine ⟨program ++ [i], ?_, ?_, ?_⟩
  · intro j hj
    rcases List.mem_append.mp hj with hj | hj
    · exact hsup j hj
    · rw [List.mem_singleton.mp hj]
      exact supported_of_decode hd hf
  · change s.buf.slice 0 (s.offset + f.length) = _
    rw [Memory.slice_append, hbytes, Nat.zero_add, ← length_encode_of_decode _ i f hd hf, slice_eq_encode s i hd]
    simp
  · simp [hout, instrLine_eq hf]

theorem errTruthful_of_err_none (s : State) (h : s.err = none) : s.ErrTruthful := by
  rw [State.ErrTruthful, h]
  trivial

theorem errTruthful_unsupported (s : State) (b : Byte) (hr : s.running)
    (hd : decode s.window = .instr (.unsupported b)) : (s.setErr (.unsupportedOpcode s.offset b)).ErrTruthful := by
  rw [window_of_running s hr] at hd
  have hc := classify_of_decode_unsupported _ b _ hd
  rw [decode_unsupported _ _ hc] at hd
  cases hd
  exact ⟨rfl, hr.2, rfl, hc⟩

theorem errTruthful_truncated (s : State) (seen needed : Nat) (hr : s.running)
    (hd : decode s.window = .truncated seen needed) :
    (s.setErr (.truncatedInstruction s.offset needed (s.len - s.offset))).ErrTruthful := by
  obtain ⟨-, -, hshort, hle⟩ := decode_truncated_bounds _ _ _ hd
  rw [length_window] at hshort
  have hlt := hr.2
  refine ⟨rfl, rfl, by omega, by omega, hle, seen, ?_⟩
  rw [window_setErr]
  exact hd

/-- A raise changes nothing that the invariant speaks of but the error record. -/
theorem setErr_inv (s : State) (e : DecodeError) (h : s.Inv) (he : (s.setErr e).ErrTruthful) : (s.setErr e).Inv where
  cursor_le := h.cursor_le
  buf_wf := h.buf_wf
  buf_bounded := h.buf_bounded
  err_truthful := he
  scanned := h.scanned

theorem step_keeps_inv (s t : State) (h : s.Inv) (hstep : step s = .next t) : t.Inv := by
  obtain ⟨hr, hres⟩ := stepResult_of_step s t hstep
  cases hres with
  | line i f hd hf hfits =>
    exact
      { cursor_le := hfits
        buf_wf := h.buf_wf
        buf_bounded := h.buf_bounded
        err_truthful := errTruthful_of_err_none _ hr.1
        scanned := scanned_line s i f hd hf h.scanned }
  | unsupported b hd => exact setErr_inv s _ h (errTruthful_unsupported s b hr hd)
  | truncated seen needed hd => exact setErr_inv s _ h (errTruthful_truncated s seen needed hr hd)

/-- Settles O45: a line extends what is scanned, and a raise is truthful. -/
theorem stepKeepsTheInvariant : Obligations.StepKeepsTheInvariant := step_keeps_inv

/-! ## Passes -/

theorem runPass_of_next {s t : State} (fuel : Nat) (h : step s = .next t) : runPass (fuel + 1) s = runPass fuel t := by
  rw [runPass, h]

theorem runPass_of_no_next {s : State} (fuel : Nat) (h : ∀ t, step s ≠ .next t) : runPass fuel s = s := by
  cases fuel with
  | zero => rfl
  | succ fuel =>
    rw [runPass]
    cases hs : step s with
    | next t => exact absurd hs (h t)
    | fault r => rfl
    | refused r => rfl

theorem not_running_of_terminal {s : State} (h : s.Terminal) : ¬ s.running := by
  rintro ⟨herr, hlt⟩
  rcases h with ⟨-, heq⟩ | hfailed
  · exact hlt.ne heq
  · exact hfailed herr

theorem terminal_of_not_running {s : State} (hle : s.offset ≤ s.len) (h : ¬ s.running) : s.Terminal := by
  by_cases herr : s.err = none
  · exact .inl ⟨herr, hle.eq_of_not_lt fun hlt => h ⟨herr, hlt⟩⟩
  · exact .inr herr

theorem runPass_of_terminal {s : State} (fuel : Nat) (h : s.Terminal) : runPass fuel s = s :=
  runPass_of_no_next fuel fun t hstep => not_running_of_terminal h (step_next s t hstep).1

theorem runPass_add (m n : Nat) (s : State) : runPass (m + n) s = runPass n (runPass m s) := by
  induction m generalizing s with
  | zero => rw [Nat.zero_add, runPass]
  | succ m ih =>
    by_cases h : ∃ t, step s = .next t
    · obtain ⟨t, ht⟩ := h
      rw [Nat.add_right_comm, runPass_of_next _ ht, runPass_of_next _ ht, ih]
    · have hno := not_exists.mp h
      rw [runPass_of_no_next _ hno, runPass_of_no_next _ hno, runPass_of_no_next _ hno]

/-- What every step keeps, a pass keeps. -/
theorem runPass_induction {P : State → Prop} (hstep : ∀ s t, P s → step s = .next t → P t) (fuel : Nat) (s : State)
    (h : P s) : P (runPass fuel s) := by
  induction fuel generalizing s with
  | zero => exact h
  | succ fuel ih =>
    by_cases hs : ∃ t, step s = .next t
    · obtain ⟨t, ht⟩ := hs
      rw [runPass_of_next _ ht]
      exact ih t (hstep s t h ht)
    · rw [runPass_of_no_next _ (not_exists.mp hs)]
      exact h

/-- Each line takes two bytes at least, so the fuel that is left stays enough. -/
theorem runPass_ends (fuel : Nat) (s : State) (hle : s.offset ≤ s.len) (hfuel : (s.len - s.offset) / 2 + 1 ≤ fuel) :
    (runPass fuel s).Terminal ∧ (runPass fuel s).out.length ≤ s.out.length + (s.len - s.offset) / 2 := by
  induction fuel generalizing s with
  | zero => omega
  | succ fuel ih =>
    by_cases hr : s.running
    · obtain ⟨t, hstep, hres⟩ := exists_stepResult s hr
      rw [runPass_of_next fuel hstep]
      cases hres with
      | line i f hd hf hfits =>
        have h2 := f.two_le_length
        generalize ht : ({ s with out := s.out ++ [lineText f.dest f.src], offset := s.offset + f.length } : State) = t
        have hlen : t.len = s.len := by rw [← ht]
        have hoffset : t.offset = s.offset + f.length := by rw [← ht]
        have hout : t.out.length = s.out.length + 1 := by rw [← ht, List.length_append, List.length_singleton]
        obtain ⟨hend, hbound⟩ := ih t (by omega) (by omega)
        exact ⟨hend, by omega⟩
      | unsupported b hd =>
        have hfailed : (s.setErr (.unsupportedOpcode s.offset b)).Terminal := .inr (by simp)
        rw [runPass_of_terminal fuel hfailed]
        exact ⟨hfailed, Nat.le_add_right _ _⟩
      | truncated seen needed hd =>
        have hfailed : (s.setErr (.truncatedInstruction s.offset needed (s.len - s.offset))).Terminal := .inr (by simp)
        rw [runPass_of_terminal fuel hfailed]
        exact ⟨hfailed, Nat.le_add_right _ _⟩
    · have hend := terminal_of_not_running hle hr
      rw [runPass_of_terminal _ hend]
      exact ⟨hend, Nat.le_add_right _ _⟩

theorem decodePass_ends (bytes : List Byte) :
    (decodePass bytes).Terminal ∧ (decodePass bytes).out.length ≤ 2 + bytes.length / 2 :=
  runPass_ends _ (.resetWith bytes) (Nat.zero_le _) le_rfl

theorem runPass_resetWith_of_le (bytes : List Byte) (fuel : Nat) (h : bytes.length / 2 + 1 ≤ fuel) :
    runPass fuel (.resetWith bytes) = decodePass bytes := by
  obtain ⟨k, rfl⟩ := Nat.exists_eq_add_of_le h
  rw [runPass_add]
  exact runPass_of_terminal k (decodePass_ends bytes).1

/-- Settles O46: by induction on the fuel, with half the bytes left as the measure. -/
theorem everyPassEnds : Obligations.EveryPassEnds := fun bytes =>
  ⟨(decodePass_ends bytes).1, (decodePass_ends bytes).2, runPass_resetWith_of_le bytes⟩

/-! ## Passes over encoded programs -/

/-- The bytes from the cursor to the end of the buffer. -/
def State.remaining (s : State) : List Byte := s.buf.slice s.offset (s.len - s.offset)

theorem length_remaining (s : State) : s.remaining.length = s.len - s.offset := Memory.length_slice _ _ _

theorem remaining_resetWith (bytes : List Byte) : (State.resetWith bytes).remaining = bytes :=
  Memory.slice_writeBytes bytes [] nil_wf 0

/-- The decoder looks at no more than four bytes. -/
theorem decode_take_four (bytes : List Byte) : decode (bytes.take 4) = decode bytes := by
  by_cases h : bytes.length ≤ 4
  · rw [List.take_of_length_le h]
  · obtain ⟨i, hd⟩ := decode_total (bytes.take 4) (by simp; omega)
    have happ := decode_append_of_instr _ (bytes.drop 4) i hd
    rw [List.take_append_drop] at happ
    rw [hd, happ]

theorem window_eq_take_remaining (s : State) : s.window = s.remaining.take 4 := by
  rw [window_eq_slice, State.remaining, ← Memory.take_slice _ _ _ _ (Nat.min_le_right 4 _), List.take_eq_take_iff]
  simp

theorem decode_window_eq_remaining (s : State) : decode s.window = decode s.remaining := by
  rw [window_eq_take_remaining, decode_take_four]

/-- `s` after the lines of a program that stands at its cursor. -/
def State.afterProgram (s : State) (program : List Instr) : State :=
  { s with out := s.out ++ program.filterMap instrLine, offset := s.offset + (program.flatMap encode).length }

theorem afterProgram_append (s : State) (p q : List Instr) :
    (s.afterProgram p).afterProgram q = s.afterProgram (p ++ q) := by
  simp [State.afterProgram, Nat.add_assoc]

/-- What remains after a program is what followed it. -/
theorem remaining_afterProgram (s : State) (program : List Instr) (tail : List Byte)
    (h : s.remaining = program.flatMap encode ++ tail) : (s.afterProgram program).remaining = tail := by
  have htotal := congrArg List.length h
  rw [length_remaining, List.length_append] at htotal
  have hsplit : s.len - s.offset =
      (program.flatMap encode).length + (s.len - (s.offset + (program.flatMap encode).length)) := by omega
  rw [State.remaining, hsplit, Memory.slice_append] at h
  exact (List.append_inj h (Memory.length_slice _ _ _)).2

end Sys2Proof.Machine


namespace Sys2Proof.Machine

theorem running_of_remaining {s : State} (herr : s.err = none) (h : s.remaining ≠ []) : s.running := by
  have hpos := List.length_pos_iff.mpr h
  rw [length_remaining] at hpos
  exact ⟨herr, by omega⟩

/-- A supported instruction at the cursor is decoded. -/
theorem step_of_remaining_encode (s : State) (i : Instr) (tail : List Byte) (hsup : Supported i) (herr : s.err = none)
    (h : s.remaining = encode i ++ tail) : step s = .next (s.afterProgram [i]) := by
  obtain ⟨hwf, hsome⟩ := hsup
  obtain ⟨f, hf⟩ := Option.ne_none_iff_exists'.mp hsome
  have hne : encode i ≠ [] := List.ne_nil_of_length_pos (length_encode_pos i)
  have hr : s.running := running_of_remaining herr (by rw [h]; exact List.append_ne_nil_of_left_ne_nil hne tail)
  have hd : decode s.window = .instr i := by
    rw [decode_window_eq_remaining, h]
    exact decode_encode_append i tail hwf
  have hlength := length_encode_of_bitFields i f hwf hf
  have hfits := fits_of_decode_window s i f hd hf
  rw [step_eq_exec_of_window s i hr hd, exec_line hf hr hlength.symm rfl (by omega)]
  simp [State.afterProgram, instrLine_eq hf]

/-- One transition per instruction of a program at the cursor. -/
theorem runPass_program (program : List Instr) (s : State) (tail : List Byte) (hsup : ∀ i ∈ program, Supported i)
    (herr : s.err = none) (h : s.remaining = program.flatMap encode ++ tail) :
    runPass program.length s = s.afterProgram program := by
  induction program generalizing s with
  | nil => simp [runPass, State.afterProgram]
  | cons i rest ih =>
    have hi : s.remaining = encode i ++ (rest.flatMap encode ++ tail) := by simpa using h
    have hstep := step_of_remaining_encode s i _ (hsup i List.mem_cons_self) herr hi
    have hrest := remaining_afterProgram s [i] (rest.flatMap encode ++ tail) (by simpa using h)
    rw [List.length_cons, runPass_of_next _ hstep,
      ih (s.afterProgram [i]) (fun j hj => hsup j (List.mem_cons_of_mem i hj)) herr hrest]
    exact afterProgram_append s [i] rest

/-- A pass over a program and a tail is the pass from the tail on, with the program's lines written. -/
theorem decodePass_program (program : List Instr) (tail : List Byte) (hsup : ∀ i ∈ program, Supported i) :
    ∃ s fuel, s = (State.resetWith (program.flatMap encode ++ tail)).afterProgram program ∧ s.remaining = tail ∧
      decodePass (program.flatMap encode ++ tail) = runPass (fuel + 1) s := by
  have hremaining := remaining_resetWith (program.flatMap encode ++ tail)
  refine ⟨_, (program.flatMap encode ++ tail).length / 2, rfl,
    remaining_afterProgram _ program tail hremaining, ?_⟩
  rw [← runPass_program program _ tail hsup rfl hremaining, ← runPass_add]
  exact (runPass_resetWith_of_le _ _ (Nat.le_add_left _ _)).symm

/-- Settles O47: nothing remains after the program, so the pass is done. -/
theorem passDecodesAnEncodedProgram : Obligations.PassDecodesAnEncodedProgram := by
  intro program hsup
  obtain ⟨s, fuel, hs, hremaining, hpass⟩ := decodePass_program program [] hsup
  rw [List.append_nil] at hs hpass
  have hdone : s.Terminal := .inl ⟨by rw [hs]; rfl, by rw [hs]; simp [State.afterProgram]⟩
  rw [decodeBuffer, hpass, runPass_of_terminal _ hdone, hs]
  simp [State.afterProgram]

/-- A pass whose first transition raises ends there. -/
theorem runPass_of_raise (fuel : Nat) (s : State) (e : DecodeError) (h : step s = .next (s.setErr e)) :
    runPass (fuel + 1) s = s.setErr e := by
  rw [runPass_of_next fuel h]
  exact runPass_of_terminal fuel (.inr (by simp))

theorem ne_nil_of_decode_ne_noByte (bytes : List Byte) (h : decode bytes ≠ .noByte) : bytes ≠ [] :=
  fun hnil => h ((decode_noByte_iff bytes).mpr hnil)

/-- Settles O48: the transition at the tail raises. -/
theorem passFailsAtTheFirstBadByte : Obligations.PassFailsAtTheFirstBadByte := by
  intro program tail hsup start
  obtain ⟨s, fuel, hs, hremaining, hpass⟩ := decodePass_program program tail hsup
  have herr : s.err = none := by rw [hs]; rfl
  have hoffset : s.offset = start := by rw [hs]; simp [State.afterProgram, start]
  have hout : s.out = header ++ program.filterMap instrLine := by rw [hs]; rfl
  have hd : decode s.window = decode tail := by rw [decode_window_eq_remaining, hremaining]
  refine ⟨fun b hb => ?_, fun seen needed ht => ?_⟩
  · have hr := running_of_remaining herr (by rw [hremaining]; exact ne_nil_of_decode_ne_noByte tail (by simp [hb]))
    have hstep : step s = .next (s.setErr (.unsupportedOpcode s.offset b)) := by
      rw [step_of_running s hr, hd, hb]
      exact whenRunning_of_running s _ hr
    rw [decodeBuffer, hpass, runPass_of_raise fuel s _ hstep]
    simp [hout, hoffset]
  · have hr := running_of_remaining herr (by rw [hremaining]; exact ne_nil_of_decode_ne_noByte tail (by simp [ht]))
    have hstep : step s = .next (s.setErr (.truncatedInstruction s.offset needed (s.len - s.offset))) := by
      rw [step_of_running s hr, hd, ht]
      rfl
    have hlen : s.len - s.offset = tail.length := by rw [← length_remaining, hremaining]
    rw [decodeBuffer, hpass, runPass_of_raise fuel s _ hstep]
    simp [hout, hoffset, ← hlen]

/-! ## Passes that end done -/

theorem decodePass_inv (bytes : List Byte) : (decodePass bytes).Inv :=
  runPass_induction step_keeps_inv _ _ (resetWith_inv bytes)

/-- No transition writes the buffer or its length (20_memory.md R42). -/
theorem step_keeps_inputs (s t : State) (h : step s = .next t) : t.buf = s.buf ∧ t.len = s.len := by
  obtain ⟨-, hres⟩ := stepResult_of_step s t h
  cases hres <;> exact ⟨rfl, rfl⟩

theorem decodePass_inputs (bytes : List Byte) :
    (decodePass bytes).buf = (State.resetWith bytes).buf ∧ (decodePass bytes).len = bytes.length :=
  runPass_induction (P := fun s => s.buf = (State.resetWith bytes).buf ∧ s.len = bytes.length)
    (fun s t h hstep => by
      obtain ⟨hbuf, hlen⟩ := step_keeps_inputs s t hstep
      exact ⟨hbuf.trans h.1, hlen.trans h.2⟩)
    _ _ ⟨rfl, rfl⟩

/-- Settles O49: the invariant, with the cursor at the end of the buffer. -/
theorem completePassIsADisassembly : Obligations.CompletePassIsADisassembly := by
  rintro bytes ⟨-, hoffset⟩
  obtain ⟨program, hsup, hscan, hout⟩ := (decodePass_inv bytes).scanned
  obtain ⟨hbuf, hlen⟩ := decodePass_inputs bytes
  rw [hoffset, hlen, hbuf, resetWith_buf, Memory.slice_writeBytes bytes [] nil_wf 0] at hscan
  exact ⟨program, hsup, hscan, hout⟩

/-- One byte of the immediate form is truncated, and is all that is read. -/
theorem decode_immediate_alone (b : Byte) (hc : classify b = .immediateToRegister) :
    decode [b] = .truncated 1 (2 + widthNumber (immWidth b)) :=
  (decode_truncated_iff _ _ _).mpr (.immediate b [] hc (by simp))

/-- Settles O50: the failing pass of O48 with no instruction before the byte. -/
theorem oneByteImmediateBufferIsTruncated : Obligations.OneByteImmediateBufferIsTruncated := by
  intro b hc
  have hd := decode_immediate_alone b hc
  have hfail := (passFailsAtTheFirstBadByte [] [b] (by simp)).2 _ _ hd
  simp only [decodeBuffer, Prod.mk.injEq] at hfail
  obtain ⟨hout, hoffset, herr⟩ := hfail
  refine ⟨hout, hoffset, ?_, ?_⟩
  · exact congrArg errorCode herr
  · have hr : (State.resetWith [b]).running := ⟨rfl, Nat.one_pos⟩
    rw [bufReads_of_running _ hr, decode_window_eq_remaining, remaining_resetWith, hd]
    rfl

end Sys2Proof.Machine
